-- ==== Sys2Proof/Word.lean ====
section
/-! DEFINITION. The word types of the styevms core: 64-bit registers, bytes of the program, 4-bit fields (rules R8, R10, R21). -/

namespace Sys2Proof

/-- A register value or `result`: XLEN = 64 bits, always read as unsigned (R8, R11, R21). -/
abbrev Word := BitVec 64

/-- A byte of the program, and the immediate of LOADI (IMMW = 8) (R8, R10). -/
abbrev Byte := BitVec 8

/-- A 4-bit field of an instruction: an operation code (OPW = 4) (R8, R81). -/
abbrev Nibble := BitVec 4

/-- A register index: IDXW = 4 bits, so it can never be out of range (R8, R25, R85). -/
abbrev RegIdx := BitVec 4

end Sys2Proof
end

