-- ==== Sys2Proof/Machine/State.lean ====
section
/-! DEFINITION. The state of the core (R20, R40), the reasons a step can stop, and the state after reset (R39, R242). -/

namespace Sys2Proof.Machine

/-- The run state, the spec's `state` (R33). -/
inductive RunState where
  /-- Constructed or reset, no run in progress. -/
  | idle
  /-- A run is in progress. -/
  | running
  /-- The run ended with success, by a DONE. -/
  | halted
  /-- The run ended with an error, which the fault record holds. -/
  | failed
deriving DecidableEq, Repr

/-- `fault.kind` (R35): the three faults of the core (R200), or none since the last reset. -/
inductive FaultKind where
  | none
  | unknownOpcode
  | divisionByZero
  | unexpectedEndOfProgram
deriving DecidableEq, Repr

/-- The fault record (R35). -/
structure FaultRecord where
  kind : FaultKind
  /-- The offending operation code for UnknownOpcode, otherwise 0 (R35, R201; log entry 6). -/
  code : Nibble
  /-- The offset of the faulting instruction or failed fetch (R35, R205; log entry 4). -/
  position : Nat
deriving DecidableEq, Repr

/-- The fault record that reset leaves: (None, 0, 0) (R39, R240; log entry 7). -/
def FaultRecord.cleared : FaultRecord := { kind := .none, code := 0#4, position := 0 }

/-- The places where the spec says the machine has no move (stuck). The core's own three faults are no outcome of
this kind: they are taken as next states with the fault record written (R205). -/
inductive Fault where
  /-- Raised by step in Idle: "In the states Idle, Halted and Failed the core has no step" (R120; log entry 8). Safe. -/
  | noStepInIdle
  /-- Raised by step in Halted (R120, R161; log entry 8). Safe. -/
  | noStepInHalted
  /-- Raised by step in Failed (R120, R210; log entry 8). Safe. -/
  | noStepInFailed
  /-- Raised by the host's reset, run and read of result in Running, where the host has no move (R181; log entry 9).
  Unsafe on a platform that can reset the core in the middle of a run, which is outside the spec. -/
  | noHostMoveWhileRunning
deriving DecidableEq, Repr

/-- What has no meaning. -/
inductive Refusal where
  /-- An instruction of the table without a meaning: raised by exec only, and by no arm of it today. Safe. -/
  | notModelled (mnemonic : String)
  /-- Raised by the host's run for a program longer than `2^PCW - 1` bytes: "refused (no meaning)" (decision D2; R8, R26;
  log entry 3). Safe. -/
  | programTooLong
deriving DecidableEq, Repr

/-- The program store: listed cells (offset, byte) with strictly rising offsets, none of them holding the byte that an
unlisted offset reads as (R50; log entries 1 and 2). -/
abbrev Memory := List Host.Cell

/-- The state of one core (R20) and the program of the current run, an input of `run` (R50; log entry 1). -/
structure State where
  /-- `x[0]` to `x[15]` (R21). -/
  regs : Vector Word 16
  /-- The program counter, a byte offset into the program (R26). -/
  pc : Nat
  /-- The output register (R32). -/
  result : Word
  /-- The run state, named `state` in the spec (R33). -/
  runState : RunState
  /-- The fault record (R35). -/
  fault : FaultRecord
  /-- The bytes of the program (R50). -/
  prog : Memory
  /-- `L`, the length of the program in bytes (R8, R50). -/
  progLen : Nat
deriving DecidableEq, Repr

/-- The state after construction and after reset (R39, R242), no program bound yet (log entry 1). -/
def State.reset : State :=
  { regs := Vector.replicate 16 0#64
    pc := 0
    result := 0#64
    runState := .idle
    fault := FaultRecord.cleared
    prog := []
    progLen := 0 }

end Sys2Proof.Machine
end

