-- ==== Sys2Proof/Machine/Ops.lean ====
section
/-! DEFINITION. The named operations over the program store, the registers, `pc`, `result` and the run state; taking a fault,
once for all three (R205), and the reset, which is the only way back (R210, R240). -/

namespace Sys2Proof.Machine

/-- What an unlisted offset below `L` reads as (log entry 2). -/
def Memory.unlisted : Byte := 0#8

/-- The byte stored at an offset. -/
def Memory.read : Memory → Nat → Byte
  | [], _ => Memory.unlisted
  | (k, b) :: m, a => if k = a then b else Memory.read m a

/-- Store a byte at an offset, keeping the canonical form: storing the byte that an unlisted offset reads as removes the
cell. No instruction stores (R51); this is how a program comes into the store. -/
def Memory.write : Memory → Nat → Byte → Memory
  | [], a, v => if v = Memory.unlisted then [] else [(a, v)]
  | (k, b) :: m, a, v =>
    if k < a then (k, b) :: Memory.write m a v
    else if k = a then (if v = Memory.unlisted then m else (a, v) :: m)
    else if v = Memory.unlisted then (k, b) :: m
    else (a, v) :: (k, b) :: m

/-- The store that holds a sequence of bytes from an offset on. -/
def Memory.ofBytes : Nat → List Byte → Memory
  | _, [] => []
  | a, b :: bs =>
    if b = Memory.unlisted then Memory.ofBytes (a + 1) bs else (a, b) :: Memory.ofBytes (a + 1) bs

/-- Canonical, with every listed offset at or above `lo`. -/
def Memory.wfFrom : Nat → Memory → Bool
  | _, [] => true
  | lo, (k, b) :: m => decide (lo ≤ k) && decide (b ≠ Memory.unlisted) && Memory.wfFrom (k + 1) m

/-- The canonical form: offsets strictly rising, no cell holding what an unlisted offset reads as. -/
def Memory.wf (m : Memory) : Bool := Memory.wfFrom 0 m

/-- Every listed offset is below `n`. -/
def Memory.below (n : Nat) (m : Memory) : Bool := m.all (fun c => decide (c.1 < n))

/-- Read `x[i]` (R12, R21, R172). Every register holds what was last written to it, `x[0]` too (R22, R24). -/
def State.readReg (s : State) (i : RegIdx) : Word := s.regs[i.toNat]'(i.isLt)

/-- Write `x[i]`, all 64 bits (R12, R172). -/
def State.writeReg (s : State) (i : RegIdx) (v : Word) : State :=
  { s with regs := s.regs.set i.toNat v i.isLt }

/-- Write `result`, all 64 bits (R32). -/
def State.writeResult (s : State) (v : Word) : State := { s with result := v }

/-- The program counter increment, always by 2 (R126, R174). -/
def State.advancePc (s : State) : State := { s with pc := s.pc + 2 }

/-- End the run with success (R34, R161). -/
def State.halt (s : State) : State := { s with runState := .halted }

/-- Take a fault: the run state becomes Failed, the fault record takes kind, code and the offset of the faulting instruction
(or failed fetch), and nothing else changes: no register, not `result`, not `pc` (R12, R205; log entries 4 and 7). -/
def State.raiseFault (s : State) (kind : FaultKind) (code : Nibble) : State :=
  { s with runState := .failed, fault := { kind := kind, code := code, position := s.pc } }

/-- The assignments of reset (R240). It leaves the program bytes alone (R240; log entry 17). No instruction returns from a
fault; this is the only way out of Failed and Halted (R34, R210). -/
def State.resetCore (s : State) : State :=
  { regs := Vector.replicate 16 0#64
    pc := 0
    result := 0#64
    runState := .idle
    fault := FaultRecord.cleared
    prog := s.prog
    progLen := s.progLen }

end Sys2Proof.Machine
end

