-- ==== Sys2Proof/Machine/Flags.lean ====
section
/-! DEFINITION. The core has no flags and no condition codes (R30). The one condition an instruction tests is the zero
divisor of DIV; it is recorded nowhere. -/

namespace Sys2Proof.Machine

/-- The test `b = 0`, on the 64-bit register value (R148, R173). -/
def isZero (b : Word) : Bool := b == 0#64

end Sys2Proof.Machine
end

