-- ==== Sys2Proof/Machine/Operands.lean ====
section
/-! DEFINITION. The operand forms (a register, the immediate byte: R84, R85) and the four arithmetic functions of the dispatch
multiplexer (R146 to R152, R173). -/

namespace Sys2Proof.Machine

/-- `zext_64(imm8)`: never sign-extended, scaled or shifted (R11, R84). -/
def zext64 (k : Byte) : Word := k.setWidth 64

/-- `(a + b) mod 2^64` (R146, R150). -/
def sumOf (a b : Word) : Word := a + b

/-- `(a - b) mod 2^64` (R147, R150). -/
def diffOf (a b : Word) : Word := a - b

/-- The low 64 bits of the exact product (R149, R150). -/
def prodOf (a b : Word) : Word := a * b

/-- `floor(a / b)`, unsigned; meaningful only for a non-zero divisor (R148, R152, R173). -/
def quotOf (a b : Word) : Word := a / b

end Sys2Proof.Machine
end

