-- ==== Sys2Proof/Machine/Arithmetic.lean ====
section
/-! DEFINITION. ADD, SUB, DIV, MUL (42_arithmetic.md). Both sources are read before the destination is written (R145, R252). -/

namespace Sys2Proof.Machine

/-- ADD: `x[d] <- (x[s0] + x[s1]) mod 2^64`; then `pc <- pc + 2` (R146). -/
def execAdd (s0 s1 d : RegIdx) (s : State) : Host.Outcome State Fault Refusal :=
  .next (s.writeReg d (sumOf (s.readReg s0) (s.readReg s1))).advancePc

/-- SUB: `x[d] <- (x[s0] - x[s1]) mod 2^64`; then `pc <- pc + 2` (R147). -/
def execSub (s0 s1 d : RegIdx) (s : State) : Host.Outcome State Fault Refusal :=
  .next (s.writeReg d (diffOf (s.readReg s0) (s.readReg s1))).advancePc

/-- DIV: `if x[s1] = 0 then raise DivisionByZero(position = pc) else x[d] <- floor(x[s0] / x[s1])`; then, if no fault,
`pc <- pc + 2` (R148, R202). -/
def execDiv (s0 s1 d : RegIdx) (s : State) : Host.Outcome State Fault Refusal :=
  if isZero (s.readReg s1) then .next (s.raiseFault .divisionByZero 0#4)
  else .next (s.writeReg d (quotOf (s.readReg s0) (s.readReg s1))).advancePc

/-- MUL: `x[d] <- (x[s0] * x[s1]) mod 2^64`; then `pc <- pc + 2` (R149). -/
def execMul (s0 s1 d : RegIdx) (s : State) : Host.Outcome State Fault Refusal :=
  .next (s.writeReg d (prodOf (s.readReg s0) (s.readReg s1))).advancePc

end Sys2Proof.Machine
end

