-- ==== Sys2Proof/Machine/LoadImmediate.lean ====
section
/-! DEFINITION. LOADI (41_load_immediate.md). -/

namespace Sys2Proof.Machine

/-- LOADI: `x[d] <- zext_64(k)`; then `pc <- pc + 2` (R140). -/
def execLoadi (d : RegIdx) (k : Byte) (s : State) : Host.Outcome State Fault Refusal :=
  .next (s.writeReg d (zext64 k)).advancePc

end Sys2Proof.Machine
end

