-- ==== Sys2Proof/Machine/ResultAndHalt.lean ====
section
/-! DEFINITION. MOVRES and DONE (43_result_and_halt.md). -/

namespace Sys2Proof.Machine

/-- MOVRES: `result <- x[s]`; then `pc <- pc + 2` (R160). -/
def execMovres (src : RegIdx) (s : State) : Host.Outcome State Fault Refusal :=
  .next (s.writeResult (s.readReg src)).advancePc

/-- DONE: `state <- Halted`; `pc <- pc + 2` (R161; log entry 5). -/
def execDone (s : State) : Host.Outcome State Fault Refusal :=
  .next s.halt.advancePc

end Sys2Proof.Machine
end

