-- ==== Sys2Proof/Syntax.lean ====
section
/-! DEFINITION. The seven instructions of the styevms register bytecode, one constructor per row of spec/opcode_table.json. -/

namespace Sys2Proof

/-- The closed instruction set (R2, R86). Operands stand in the order of the fields reg0, reg1, reg2, which is the
Assembler's order (R101). The ignored bits of DONE and MOVRES (R95) are no operands. -/
inductive Instr where
  /-- `DONE;` operation code 0 (R87, R161). -/
  | done
  /-- `LOADI dest, imm;` operation code 1 (R88, R140). -/
  | loadi (dest : RegIdx) (imm : Byte)
  /-- `ADD src0, src1, dest;` operation code 2 (R89, R146). -/
  | add (src0 src1 dest : RegIdx)
  /-- `SUB src0, src1, dest;` operation code 3 (R90, R147). -/
  | sub (src0 src1 dest : RegIdx)
  /-- `DIV src0, src1, dest;` operation code 4 (R91, R148). -/
  | div (src0 src1 dest : RegIdx)
  /-- `MUL src0, src1, dest;` operation code 5 (R92, R149). -/
  | mul (src0 src1 dest : RegIdx)
  /-- `MOVRES src;` operation code 6 (R93, R160). -/
  | movres (src : RegIdx)
deriving DecidableEq, Repr

end Sys2Proof
end

