-- ==== Sys2Proof/Machine/Dispatch.lean ====
section
/-! DEFINITION. The dispatch: one arm per instruction (R124). -/

namespace Sys2Proof.Machine

def exec (i : Instr) (s : State) : Host.Outcome State Fault Refusal :=
  match i with
  | .done => Sys2Proof.Machine.execDone s
  | .loadi d k => Sys2Proof.Machine.execLoadi d k s
  | .add s0 s1 d => Sys2Proof.Machine.execAdd s0 s1 d s
  | .sub s0 s1 d => Sys2Proof.Machine.execSub s0 s1 d s
  | .div s0 s1 d => Sys2Proof.Machine.execDiv s0 s1 d s
  | .mul s0 s1 d => Sys2Proof.Machine.execMul s0 s1 d s
  | .movres src => Sys2Proof.Machine.execMovres src s

end Sys2Proof.Machine
end

