-- ==== Sys2Proof/WellFormed.lean ====
section
/-! DEFINITION. The Assembler's symbolic statements, whose operands are plain numbers, and its range check (R100 to R104;
log entry 16). An `Instr` cannot hold an operand out of range (R25); a statement can, and is then ill-formed. -/

namespace Sys2Proof

/-- A symbolic statement: operation name and operands as numbers, in the order in which they are written (R100 to R102). -/
inductive Stmt where
  | done
  | loadi (dest imm : Nat)
  | add (src0 src1 dest : Nat)
  | sub (src0 src1 dest : Nat)
  | div (src0 src1 dest : Nat)
  | mul (src0 src1 dest : Nat)
  | movres (src : Nat)
deriving DecidableEq, Repr

/-- "register indices must be 0–15" (R104). -/
def regInRange (n : Nat) : Bool := decide (n < 16)

/-- "immediates must be 0–255" (R104). -/
def immInRange (n : Nat) : Bool := decide (n < 256)

/-- The Assembler's range check of a statement (R104). -/
def Stmt.wellFormed : Stmt → Bool
  | .done => true
  | .loadi d k => regInRange d && immInRange k
  | .add a b c => regInRange a && regInRange b && regInRange c
  | .sub a b c => regInRange a && regInRange b && regInRange c
  | .div a b c => regInRange a && regInRange b && regInRange c
  | .mul a b c => regInRange a && regInRange b && regInRange c
  | .movres a => regInRange a

/-- The statement that says an instruction: its operands as numbers (R85, R101). -/
def Instr.toStmt : Instr → Stmt
  | .done => .done
  | .loadi d k => .loadi d.toNat k.toNat
  | .add a b c => .add a.toNat b.toNat c.toNat
  | .sub a b c => .sub a.toNat b.toNat c.toNat
  | .div a b c => .div a.toNat b.toNat c.toNat
  | .mul a b c => .mul a.toNat b.toNat c.toNat
  | .movres a => .movres a.toNat

/-- An instruction is well-formed when its operands, as numbers, pass the range check; every `Instr` is, because its fields
are 4 and 8 bits wide (R25, R85). -/
def Instr.wellFormed (i : Instr) : Bool := i.toStmt.wellFormed

end Sys2Proof
end

