-- ==== Sys2Proof/Decode.lean ====
section
/-! DEFINITION. The instruction decoder (R81 to R83, R122, R171), total on any two bytes, rejecting reserved operation codes by
name; after it the encoding function (R103), the Assembler on statements (R103, R104) and the opcode table (R99). -/

namespace Sys2Proof

/-- The five outputs of the instruction decoder (R81, R171). -/
structure Fields where
  op : Nibble
  reg0 : RegIdx
  reg1 : RegIdx
  reg2 : RegIdx
  imm8 : Byte
deriving DecidableEq, Repr

/-- `op = byte0[7:4]`, `reg0 = byte0[3:0]`, `reg1 = byte1[7:4]`, `reg2 = byte1[3:0]`, `imm8 = byte1[7:0]` (R81, R122, R171).
A function of the two bytes alone, defined for all of them (R83). -/
def splitFields (byte0 byte1 : Byte) : Fields :=
  { op := byte0.extractLsb' 4 4
    reg0 := byte0.extractLsb' 0 4
    reg1 := byte1.extractLsb' 4 4
    reg2 := byte1.extractLsb' 0 4
    imm8 := byte1 }

/-- A byte from its high and its low nibble, `hi ‖ lo` (R10). -/
def joinNibbles (hi lo : Nibble) : Byte := hi ++ lo

/-- The raw pair of bytes whose fields are the given ones: the codec's other direction on the level of the raw pair
(R37, R105 (b)). -/
def joinFields (f : Fields) : Byte × Byte := (joinNibbles f.op f.reg0, joinNibbles f.reg1 f.reg2)

/-- What the dispatch makes of two bytes: one of the seven instructions, or a reserved operation code, by its value. -/
inductive Decoded where
  | instr (i : Instr)
  | reservedOpcode (op : Nibble)
deriving DecidableEq, Repr

/-- The instruction that the fields stand for, selected by `op` alone (R82, R86, R124); 7 to 15 are reserved (R94). -/
def selectInstr (f : Fields) : Decoded :=
  match f.op.toNat with
  | 0 => .instr .done
  | 1 => .instr (.loadi f.reg0 f.imm8)
  | 2 => .instr (.add f.reg0 f.reg1 f.reg2)
  | 3 => .instr (.sub f.reg0 f.reg1 f.reg2)
  | 4 => .instr (.div f.reg0 f.reg1 f.reg2)
  | 5 => .instr (.mul f.reg0 f.reg1 f.reg2)
  | 6 => .instr (.movres f.reg0)
  | _ => .reservedOpcode f.op

/-- Decode of two bytes: byte0 stands at the lower offset (R55). -/
def decode (byte0 byte1 : Byte) : Decoded := selectInstr (splitFields byte0 byte1)

/-- The operation code of an instruction: "Done=0, LoadI=1, Add=2, Sub=3, Div=4, Mul=5, MovRes=6" (R86). -/
def Instr.opcode : Instr → Nibble
  | .done => 0#4
  | .loadi _ _ => 1#4
  | .add _ _ _ => 2#4
  | .sub _ _ _ => 3#4
  | .div _ _ _ => 4#4
  | .mul _ _ _ => 5#4
  | .movres _ => 6#4

/-- The canonical two bytes of an instruction, laid out as R81 says, unused bits zero (R87 to R93, R96, R103). -/
def encode : Instr → Byte × Byte
  | .done => (joinNibbles 0#4 0#4, 0#8)
  | .loadi d k => (joinNibbles 1#4 d, k)
  | .add a b c => (joinNibbles 2#4 a, joinNibbles b c)
  | .sub a b c => (joinNibbles 3#4 a, joinNibbles b c)
  | .div a b c => (joinNibbles 4#4 a, joinNibbles b c)
  | .mul a b c => (joinNibbles 5#4 a, joinNibbles b c)
  | .movres s => (joinNibbles 6#4 s, 0#8)

/-- A pair of bytes is canonical when every bit its operation code leaves unused is 0 (R96). -/
def canonicalPair (byte0 byte1 : Byte) : Bool :=
  match (splitFields byte0 byte1).op.toNat with
  | 0 => (splitFields byte0 byte1).reg0 == 0#4 && byte1 == 0#8
  | 6 => byte1 == 0#8
  | _ => true

/-- The Assembler's one error (R104). It is no fault of the core (R204). -/
inductive AsmError where
  | operandOutOfRange
deriving DecidableEq, Repr

/-- The instruction of a statement whose operands are in range. -/
def Stmt.toInstr : Stmt → Instr
  | .done => .done
  | .loadi d k => .loadi (BitVec.ofNat 4 d) (BitVec.ofNat 8 k)
  | .add a b c => .add (BitVec.ofNat 4 a) (BitVec.ofNat 4 b) (BitVec.ofNat 4 c)
  | .sub a b c => .sub (BitVec.ofNat 4 a) (BitVec.ofNat 4 b) (BitVec.ofNat 4 c)
  | .div a b c => .div (BitVec.ofNat 4 a) (BitVec.ofNat 4 b) (BitVec.ofNat 4 c)
  | .mul a b c => .mul (BitVec.ofNat 4 a) (BitVec.ofNat 4 b) (BitVec.ofNat 4 c)
  | .movres a => .movres (BitVec.ofNat 4 a)

/-- One statement to its two bytes; an operand out of range fails "before any bytes are produced" (R103, R104). -/
def assembleStmt (st : Stmt) : Except AsmError (Byte × Byte) :=
  if st.wellFormed then .ok (encode st.toInstr) else .error .operandOutOfRange

/-- The Assembler on a sequence of statements: the byte pairs in order (R103). -/
def assemble : List Stmt → Except AsmError (List Byte)
  | [] => .ok []
  | st :: rest =>
    match assembleStmt st, assemble rest with
    | .ok (b0, b1), .ok bs => .ok (b0 :: b1 :: bs)
    | _, _ => .error .operandOutOfRange

/-- The mnemonic of an instruction (R100). -/
def Instr.mnemonic : Instr → String
  | .done => "DONE"
  | .loadi _ _ => "LOADI"
  | .add _ _ _ => "ADD"
  | .sub _ _ _ => "SUB"
  | .div _ _ _ => "DIV"
  | .mul _ _ _ => "MUL"
  | .movres _ => "MOVRES"

/-- A row of spec/opcode_table.json: `pattern` is its column `match`, over `iw = byte0 ‖ byte1` (R10, R99). -/
structure OpcodeRow where
  mnemonic : String
  pattern : BitVec 16
  mask : BitVec 16
deriving DecidableEq, Repr

/-- The seven rows (R86 to R93, R99). -/
def opcodeTable : List OpcodeRow :=
  [ ⟨"DONE", 0x0000#16, 0xF000#16⟩,
    ⟨"LOADI", 0x1000#16, 0xF000#16⟩,
    ⟨"ADD", 0x2000#16, 0xF000#16⟩,
    ⟨"SUB", 0x3000#16, 0xF000#16⟩,
    ⟨"DIV", 0x4000#16, 0xF000#16⟩,
    ⟨"MUL", 0x5000#16, 0xF000#16⟩,
    ⟨"MOVRES", 0x6000#16, 0xF000#16⟩ ]

/-- The instruction word `iw = byte0 ‖ byte1` (R10). -/
def instrWord (byte0 byte1 : Byte) : BitVec 16 := byte0 ++ byte1

/-- `(iw & mask) == match` (R99). -/
def OpcodeRow.matches (r : OpcodeRow) (iw : BitVec 16) : Bool := (iw &&& r.mask) == r.pattern

/-- "find the row with `(iw & mask) == match`" (R99). -/
def findRow (iw : BitVec 16) : Option OpcodeRow := opcodeTable.find? (fun r => r.matches iw)

/-- The two bytes of an instruction whose bits are numbered as the opcode table numbers them, over `iw`: byte0 is
`iw[15:8]` and stands first in the program, byte1 is `iw[7:0]` (R10, R55). Bits from `nbits` up count as 0. -/
def tableBytes (nbits w : Nat) : Byte × Byte :=
  (BitVec.ofNat 8 (w % 2 ^ nbits / 256), BitVec.ofNat 8 (w % 2 ^ nbits))

/-- The instruction the decoder reads from the table word `w`; none for a reserved operation code (R94, R99). -/
def decodeTableWord (nbits w : Nat) : Option Instr :=
  match decode (tableBytes nbits w).1 (tableBytes nbits w).2 with
  | .instr i => some i
  | .reservedOpcode _ => none

end Sys2Proof
end

