-- ==== Sys2Proof/Machine/Fetch.lean ====
section
/-! DEFINITION. The fetch (R53, R121) and what a step does before an instruction's own effect: whether there is a step at all
(R120), the fetch fault (R203), the reserved operation codes (R201), in that order (R208). -/

namespace Sys2Proof.Machine

/-- `prog[a]`, defined for `0 <= a < L` (R12, R50). -/
def State.progByte (s : State) (a : Nat) : Option Byte :=
  if a < s.progLen then some (Memory.read s.prog a) else none

/-- `Fetch(pc)`: none if fewer than 2 bytes remain, otherwise `(prog[pc], prog[pc+1])` (R53, R121). The check comes first,
so no byte at or above `L` is read. -/
def State.fetch (s : State) : Option (Byte × Byte) :=
  if s.progLen - s.pc < 2 then none
  else some (Memory.read s.prog s.pc, Memory.read s.prog (s.pc + 1))

/-- What the front of a step finds. -/
inductive Front where
  /-- The run state has no step. -/
  | noStep (r : Fault)
  /-- A fault is raised before any instruction's own effect; the state after it. -/
  | faulted (s : State)
  /-- An instruction is to be executed. -/
  | run (i : Instr)
deriving DecidableEq, Repr

/-- The front of a step: no step outside Running (R120), then the fetch check, then the dispatch's check of the operation
code (R208). -/
def stepFront (s : State) : Front :=
  match s.runState with
  | .idle => .noStep .noStepInIdle
  | .halted => .noStep .noStepInHalted
  | .failed => .noStep .noStepInFailed
  | .running =>
    match s.fetch with
    | none => .faulted (s.raiseFault .unexpectedEndOfProgram 0#4)
    | some (byte0, byte1) =>
      match decode byte0 byte1 with
      | .reservedOpcode op => .faulted (s.raiseFault .unknownOpcode op)
      | .instr i => .run i

/-- Put an instruction's two bytes at `pc` and make the next step fetch them: the program reaches at least past them, a
run is in progress, and no fault is recorded, as in every run in progress (R34, R35; log entry 10). -/
def State.placeAtPc (s : State) (byte0 byte1 : Byte) : State :=
  { s with
    runState := .running
    fault := FaultRecord.cleared
    prog := Memory.write (Memory.write s.prog s.pc byte0) (s.pc + 1) byte1
    progLen := max s.progLen (s.pc + 2) }

end Sys2Proof.Machine
end

