-- ==== Sys2Proof/Machine/Step.lean ====
section
/-! DEFINITION. One step of the core (R120, R127). -/

namespace Sys2Proof.Machine

/-- One pass of the loop: fetch, decode, dispatch (R120 to R127). -/
def step (s : State) : Host.Outcome State Fault Refusal :=
  match stepFront s with
  | .noStep r => .fault r
  | .faulted t => .next t
  | .run i => exec i s

/-- The state with the table word `w` as the instruction at `pc`, so that the next step fetches and runs it; it stands for
the load of a program by `run` (log entry 10). -/
def State.withFetchWord (s : State) (nbits w : Nat) : State :=
  s.placeAtPc (tableBytes nbits w).1 (tableBytes nbits w).2

end Sys2Proof.Machine
end

