-- ==== Sys2Proof/Machine/Datapath.lean ====
section
/-! DEFINITION. The four sub-blocks of the core and their wires (R170 to R175), a second description of the same step in the
spec's block view: decoder (`splitFields`), register file ports, execute dispatch multiplexer, program counter increment.
The arithmetic is exact on natural numbers and narrowed at the end. Log entry 18. -/

namespace Sys2Proof.Machine

/-- The outputs of the execute dispatch multiplexer (R173). -/
structure MuxOut where
  rfWe : Bool
  rfWaddr : RegIdx
  rfWdata : Word
  resWe : Bool
  resWdata : Word
  halt : Bool
  faultKind : FaultKind
  faultCode : Nibble
deriving DecidableEq, Repr

/-- `rf_we`: LOADI, ADD, SUB, MUL, and DIV with a non-zero divisor (R173). -/
def muxRfWe (op : Nibble) (b : Word) : Bool :=
  match op.toNat with
  | 1 | 2 | 3 | 5 => true
  | 4 => decide (b.toNat ≠ 0)
  | _ => false

/-- `rf_wdata` (R173): `zext_64(imm8)`, sum, diff, quot, prod for op 1 to 5; where nothing is written it is 0 (log entry 18). -/
def muxRfWdata (op : Nibble) (imm8 : Byte) (a b : Word) : Word :=
  match op.toNat with
  | 1 => BitVec.ofNat 64 imm8.toNat
  | 2 => BitVec.ofNat 64 ((a.toNat + b.toNat) % 2 ^ 64)
  | 3 => BitVec.ofNat 64 ((2 ^ 64 + a.toNat - b.toNat) % 2 ^ 64)
  | 4 => BitVec.ofNat 64 (a.toNat / b.toNat)
  | 5 => BitVec.ofNat 64 ((a.toNat * b.toNat) % 2 ^ 64)
  | _ => 0#64

/-- `fault_kind` (R173). -/
def muxFaultKind (op : Nibble) (b : Word) : FaultKind :=
  if 7 ≤ op.toNat then .unknownOpcode
  else if op.toNat = 4 ∧ b.toNat = 0 then .divisionByZero
  else .none

/-- The execute dispatch multiplexer: `a` and `b` are the data of the two read ports (R173). The destination index comes from
reg0 for LOADI and from reg2 for the arithmetic instructions (R125). -/
def dispatchMux (f : Fields) (a b : Word) : MuxOut :=
  { rfWe := muxRfWe f.op b
    rfWaddr := if f.op.toNat = 1 then f.reg0 else f.reg2
    rfWdata := muxRfWdata f.op f.imm8 a b
    resWe := decide (f.op.toNat = 6)
    resWdata := a
    halt := decide (f.op.toNat = 0)
    faultKind := muxFaultKind f.op b
    faultCode := f.op }

/-- The register file's write port (R172): a read in the same step gives the value before the write. -/
def regFileWrite (regs : Vector Word 16) (we : Bool) (waddr : RegIdx) (wdata : Word) : Vector Word 16 :=
  if we then regs.set waddr.toNat wdata waddr.isLt else regs

/-- The state at the end of a step whose two bytes were fetched: every register of the core takes its next value from the
multiplexer's outputs (R125, R126, R172 to R174). -/
def commitMux (s : State) (m : MuxOut) : State :=
  { s with
    regs := regFileWrite s.regs m.rfWe m.rfWaddr m.rfWdata
    result := if m.resWe then m.resWdata else s.result
    pc := if m.faultKind = .none then s.pc + 2 else s.pc
    runState := if m.faultKind ≠ .none then .failed else if m.halt then .halted else s.runState
    fault := if m.faultKind = .none then s.fault
      else { kind := m.faultKind, code := if m.faultKind = .unknownOpcode then m.faultCode else 0#4, position := s.pc } }

/-- One step of the four sub-blocks in the state Running (R170 to R175): the fetch unit compares `L - pc` with 2 first
(R174). -/
def datapathStep (s : State) : State :=
  if s.progLen - s.pc < 2 then
    { s with runState := .failed, fault := { kind := .unexpectedEndOfProgram, code := 0#4, position := s.pc } }
  else
    let f := splitFields (Memory.read s.prog s.pc) (Memory.read s.prog (s.pc + 1))
    commitMux s (dispatchMux f (s.readReg f.reg0) (s.readReg f.reg1))

end Sys2Proof.Machine
end

