-- ==== Sys2Proof/Config.lean ====
section
/-! DEFINITION. What an implementation fixes and the spec leaves open. -/

namespace Sys2Proof.Config

/-- `PCW`, the width in bits of the program counter of an implementation (R8, R26; decision D2; log entry 3).
The spec leaves it open, so nothing can evaluate it here. -/
opaque pcWidth : Nat

/-- The longest program an implementation takes: `L <= 2^PCW - 1` (R8, R26). -/
def maxProgramLength : Nat := 2 ^ pcWidth - 1

end Sys2Proof.Config
end

