-- ==== Sys2Proof/Machine/HostInterface.lean ====
section
/-! DEFINITION. The host's moves (R176 to R182), the run loop (R128) and the codes in which outcomes are exposed (R33, R207). -/

namespace Sys2Proof.Machine

/-- The two-bit code of the run state: Idle 0, Running 1, Halted 2, Failed 3 (R33; log entry 7). -/
def runStateCode : RunState → BitVec 2
  | .idle => 0#2
  | .running => 1#2
  | .halted => 2#2
  | .failed => 3#2

/-- The two-bit code of a fault kind: None 0, UnknownOpcode 1, DivisionByZero 2, UnexpectedEndOfProgram 3 (R35, R207; log
entry 7). -/
def faultKindCode : FaultKind → BitVec 2
  | .none => 0#2
  | .unknownOpcode => 1#2
  | .divisionByZero => 2#2
  | .unexpectedEndOfProgram => 3#2

/-- Parts (1) and (2) of `run`: reset, bind the program bytes and `L`, Running (R128). -/
def beginRun (bytes : List Byte) (s : State) : State :=
  { s.resetCore with
    runState := .running
    prog := Memory.ofBytes 0 bytes
    progLen := bytes.length }

/-- Part (3) of `run`, for at most so many steps: `step()` while there is one (R128). -/
def runLoop : Nat → State → State
  | 0, s => s
  | n + 1, s =>
    match step s with
    | .next t => runLoop n t
    | .fault _ => s
    | .refused _ => s

/-- The bound on the number of steps of a run: `floor(L/2) + 1` (R19, R130; log entry 20). -/
def stepBound (bytes : List Byte) : Nat := bytes.length / 2 + 1

/-- `reset()`: accepted in Idle, Halted and Failed, always succeeds there; no move in Running (R177, R181; log entry 9). -/
def hostReset (s : State) : Host.Outcome State Fault Refusal :=
  if s.runState = .running then .fault .noHostMoveWhileRunning else .next s.resetCore

/-- `run(bytes)`, the blocking call: accepted in Idle, Halted and Failed (R128, R178, R181); a program too long for the
program counter is refused (decision D2; log entry 3). Its next state is the one in which `run` returns. -/
def hostRun (bytes : List Byte) (s : State) : Host.Outcome State Fault Refusal :=
  if s.runState = .running then .fault .noHostMoveWhileRunning
  else if Config.maxProgramLength < bytes.length then .refused .programTooLong
  else .next (runLoop (stepBound bytes) (beginRun bytes s))

/-- The host's read of `result`: in Idle, Halted and Failed, not in Running (R179; log entry 19). -/
def hostReadResult (s : State) : Host.Outcome Word Fault Refusal :=
  if s.runState = .running then .fault .noHostMoveWhileRunning else .next s.result

/-- What `run` hands back: success with the result, or the typed error with its payload (R33, R178, R180). -/
inductive RunReturn where
  | success (result : Word)
  | error (kind : FaultKind) (code : Nibble) (position : Nat)
deriving DecidableEq, Repr

/-- The return value that a state carries: none while no run has ended (R33, R180). -/
def runReturn (s : State) : Option RunReturn :=
  match s.runState with
  | .idle => none
  | .running => none
  | .halted => some (.success s.result)
  | .failed => some (.error s.fault.kind s.fault.code s.fault.position)

end Sys2Proof.Machine
end

