-- ==== Sys2Proof/Safety.lean ====
section
/-! DEFINITION. The terms in which statements speak of a step and of a run: frames, the invariants of the state, what a run's
steps execute. -/

namespace Sys2Proof.Machine

/-- Every byte of the program reads the same in both states, and so does its end (R50, R62). -/
def SameProgram (s t : State) : Prop := ∀ a, t.progByte a = s.progByte a

/-- Every register reads the same in both states. -/
def SameRegs (s t : State) : Prop := ∀ r, t.readReg r = s.readReg r

/-- From `s` to `t` only the register `d` and `pc` change: `x[d]` becomes `v`, `pc` advances by 2. -/
structure WritesOnlyReg (d : RegIdx) (v : Word) (s t : State) : Prop where
  dest : t.readReg d = v
  others : ∀ r, r ≠ d → t.readReg r = s.readReg r
  pc : t.pc = s.pc + 2
  result : t.result = s.result
  runState : t.runState = s.runState
  fault : t.fault = s.fault
  program : SameProgram s t

/-- From `s` to `t` only `result` and `pc` change. -/
structure WritesOnlyResult (v : Word) (s t : State) : Prop where
  result : t.result = v
  regs : SameRegs s t
  pc : t.pc = s.pc + 2
  runState : t.runState = s.runState
  fault : t.fault = s.fault
  program : SameProgram s t

/-- From `s` to `t` a fault is taken and nothing else happens (R205). -/
structure TakesFault (kind : FaultKind) (code : Nibble) (s t : State) : Prop where
  runState : t.runState = .failed
  fault : t.fault = { kind := kind, code := code, position := s.pc }
  regs : SameRegs s t
  result : t.result = s.result
  pc : t.pc = s.pc
  program : SameProgram s t

/-- The fields of the instruction that a step at `s` would fetch: none if there is no step or fewer than 2 bytes remain. -/
def fieldsAt (s : State) : Option Fields :=
  if s.runState = .running then (s.fetch).map (fun p => splitFields p.1 p.2) else none

/-- The state after `k` steps of the run of `bytes` (fewer if it has ended), started in `s` (R128). -/
def stateAfter (bytes : List Byte) (k : Nat) (s : State) : State := runLoop k (beginRun bytes s)

/-- The register that an instruction with these fields names as its destination (R23, R125). -/
def destOf (f : Fields) : Option RegIdx :=
  match f.op.toNat with
  | 1 => some f.reg0
  | 2 | 3 | 4 | 5 => some f.reg2
  | _ => none

/-- The two operation codes' worth of instructions that neither end a run nor fault on these sources: op 1 to 6, and for DIV
a non-zero divisor (R130). -/
def goesOn (s : State) (f : Fields) : Prop :=
  1 ≤ f.op.toNat ∧ f.op.toNat ≤ 6 ∧ (f.op.toNat = 4 → s.readReg f.reg1 ≠ 0#64)

/-- The shape every state keeps (R28, R29, R33, R35, R39, R40), whatever the program does. -/
structure State.Inv (s : State) : Prop where
  /-- The program store keeps its canonical form. -/
  progCanonical : Memory.wf s.prog = true
  /-- No byte is listed at or above `L` (R50). -/
  progInside : Memory.below s.progLen s.prog = true
  /-- `pc` is a multiple of 2 (R28 (a)). -/
  pcEven : s.pc % 2 = 0
  /-- `pc <= 2 * floor(L/2)` (R28 (b)). -/
  pcInside : s.pc ≤ 2 * (s.progLen / 2)
  /-- `fault.kind != None` exactly when the state is Failed (R35). -/
  faultIffFailed : s.fault.kind ≠ .none ↔ s.runState = .failed
  /-- No fault recorded: code 0 and position 0 (R35). -/
  noFault : s.fault.kind = .none → s.fault = FaultRecord.cleared
  /-- `fault.code` is 7 to 15 for UnknownOpcode, otherwise 0 (R35). -/
  faultCode : (s.fault.kind = .unknownOpcode → 7 ≤ s.fault.code.toNat) ∧
    (s.fault.kind ≠ .unknownOpcode → s.fault.code = 0#4)
  /-- In Failed, `pc` equals `fault.position` (R29). -/
  failedPc : s.runState = .failed → s.pc = s.fault.position
  /-- In Idle everything is as reset leaves it (R33, R39). -/
  idleZero : s.runState = .idle → s.pc = 0 ∧ s.result = 0#64 ∧ ∀ r, s.readReg r = 0#64

/-- An ended run ended for the reason it shows (R29, R161, R201, R202, R203): in Halted a DONE stands right before `pc`; in
Failed the bytes at `fault.position` and the registers show the cause that is recorded. -/
structure State.EndedForCause (s : State) : Prop where
  halted : s.runState = .halted →
    2 ≤ s.pc ∧ s.pc ≤ s.progLen ∧ ∃ byte0, s.progByte (s.pc - 2) = some byte0 ∧ byte0.extractLsb' 4 4 = 0#4
  unknownOpcode : s.fault.kind = .unknownOpcode →
    ∃ byte0 byte1, s.progByte s.fault.position = some byte0 ∧ s.progByte (s.fault.position + 1) = some byte1 ∧
      byte0.extractLsb' 4 4 = s.fault.code ∧ 7 ≤ s.fault.code.toNat
  divisionByZero : s.fault.kind = .divisionByZero →
    ∃ byte0 byte1, s.progByte s.fault.position = some byte0 ∧ s.progByte (s.fault.position + 1) = some byte1 ∧
      byte0.extractLsb' 4 4 = 4#4 ∧ s.readReg (byte1.extractLsb' 4 4) = 0#64
  unexpectedEnd : s.fault.kind = .unexpectedEndOfProgram → s.progLen - s.fault.position < 2

end Sys2Proof.Machine
end

