-- ==== Sys2Proof/Certificates/Slice0/Obligations.lean ====
section
/-! DEFINITION. The statements for the provers, from the numbered rules of spec/. -/

open Sys2Proof Sys2Proof.Machine

/-- A few words of R81, R87 to R93, V1, byte by byte. -/
def Obligations.SampleWordsDecodeToTheirInstructions : Prop :=
  decode 0x0F#8 0xFF#8 = .instr .done ∧
  decode 0x17#8 0x80#8 = .instr (.loadi 7#4 128#8) ∧
  decode 0x2A#8 0xBC#8 = .instr (.add 10#4 11#4 12#4) ∧
  decode 0x30#8 0x12#8 = .instr (.sub 0#4 1#4 2#4) ∧
  decode 0x4F#8 0x0F#8 = .instr (.div 15#4 0#4 15#4) ∧
  decode 0x59#8 0x87#8 = .instr (.mul 9#4 8#4 7#4) ∧
  decode 0x63#8 0xAB#8 = .instr (.movres 3#4) ∧
  decode 0x8A#8 0x12#8 = .reservedOpcode 8#4

/-- The five outputs of the decoder as numbers, for any two bytes (R122). -/
def Obligations.DecoderGivesTheFiveFields : Prop :=
  ∀ byte0 byte1 : Byte,
    (splitFields byte0 byte1).op.toNat = byte0.toNat / 16 ∧
    (splitFields byte0 byte1).reg0.toNat = byte0.toNat % 16 ∧
    (splitFields byte0 byte1).reg1.toNat = byte1.toNat / 16 ∧
    (splitFields byte0 byte1).reg2.toNat = byte1.toNat % 16 ∧
    (splitFields byte0 byte1).imm8 = byte1

/-- Every instruction is well-formed, and decoding its encoding gives it back (30_encoding.md section 7, first round-trip
law, of which the spec says that it is derived). -/
def Obligations.DecodeOfEncodeIsTheInstruction : Prop :=
  ∀ i : Instr, i.wellFormed = true ∧ decode (encode i).1 (encode i).2 = .instr i

/-- The Assembler on one statement: in range, its two bytes decode to an instruction that says the same statement; out of
range, OperandOutOfRange and no bytes (30_encoding.md section 7; log entry 16). -/
def Obligations.AssembledStatementsDecodeToThemselves : Prop :=
  ∀ st : Stmt,
    (st.wellFormed = true → ∃ byte0 byte1 i, assembleStmt st = .ok (byte0, byte1) ∧
      decode byte0 byte1 = .instr i ∧ i.toStmt = st) ∧
    (st.wellFormed = false → assembleStmt st = .error .operandOutOfRange)

/-- The other direction of the round trip (30_encoding.md section 7; 90_conflicts.md C3): the fields of any pair give the
pair back, and the decoded instruction encodes to the same pair exactly when the pair is canonical. -/
def Obligations.EncodeOfDecodeIsTheCanonicalPair : Prop :=
  ∀ byte0 byte1 : Byte,
    joinFields (splitFields byte0 byte1) = (byte0, byte1) ∧
    ∀ i, decode byte0 byte1 = .instr i → (encode i = (byte0, byte1) ↔ canonicalPair byte0 byte1 = true)

/-- The opcode table and the decoder agree on all 65536 words, and no word matches two rows (30_encoding.md section 6, of
which the spec says that it is derived). -/
def Obligations.OpcodeTableAgreesWithDecoder : Prop :=
  (∀ byte0 byte1 : Byte,
    (∀ i, decode byte0 byte1 = .instr i →
      ∃ r, findRow (instrWord byte0 byte1) = some r ∧ r.mnemonic = i.mnemonic) ∧
    (∀ op, decode byte0 byte1 = .reservedOpcode op → findRow (instrWord byte0 byte1) = none)) ∧
  (∀ iw r r', r ∈ opcodeTable → r' ∈ opcodeTable → r.matches iw = true → r'.matches iw = true → r = r')

/-- A step runs the instruction that the two bytes at `pc` decode to: nothing is added around exec (40_fetch_decode_dispatch.md
section 1). -/
def Obligations.StepRunsTheDecodedInstruction : Prop :=
  ∀ (s : State) (byte0 byte1 : Byte) (i : Instr),
    s.runState = .running → s.progByte s.pc = some byte0 → s.progByte (s.pc + 1) = some byte1 →
    decode byte0 byte1 = .instr i → step s = exec i s

/-- There is a step exactly in Running, and it always answers a next state; each other run state has its own stop
(40_fetch_decode_dispatch.md section 1; that the stop is a named fault is log entry 8). -/
def Obligations.StepExistsExactlyWhileRunning : Prop :=
  ∀ s : State,
    ((∃ t, step s = .next t) ↔ s.runState = .running) ∧
    (s.runState = .idle → step s = .fault .noStepInIdle) ∧
    (s.runState = .halted → step s = .fault .noStepInHalted) ∧
    (s.runState = .failed → step s = .fault .noStepInFailed)

/-- LOADI (R140): its two bytes, its effect and its frame, from every state, for every register and immediate. -/
def Obligations.LoadiWritesTheZeroExtendedImmediate : Prop :=
  ∀ (d : RegIdx) (k : Byte) (s : State),
    encode (.loadi d k) = (0x10#8 + d.setWidth 8, k) ∧
    decode (0x10#8 + d.setWidth 8) k = .instr (.loadi d k) ∧
    ∃ t, exec (.loadi d k) s = .next t ∧ WritesOnlyReg d (BitVec.ofNat 64 k.toNat) s t

/-- ADD (R146): its two bytes, the sum modulo 2^64, its frame. -/
def Obligations.AddWritesTheSumModuloTwoToThe64 : Prop :=
  ∀ (s0 s1 d : RegIdx) (s : State),
    encode (.add s0 s1 d) = (0x20#8 + s0.setWidth 8, 16#8 * s1.setWidth 8 + d.setWidth 8) ∧
    decode (0x20#8 + s0.setWidth 8) (16#8 * s1.setWidth 8 + d.setWidth 8) = .instr (.add s0 s1 d) ∧
    ∃ t, exec (.add s0 s1 d) s = .next t ∧
      WritesOnlyReg d (BitVec.ofNat 64 (((s.readReg s0).toNat + (s.readReg s1).toNat) % 2 ^ 64)) s t

/-- SUB (R147): its two bytes, `a - b` if `a >= b` and `a - b + 2^64` if `a < b`, its frame. -/
def Obligations.SubWritesTheDifferenceModuloTwoToThe64 : Prop :=
  ∀ (s0 s1 d : RegIdx) (s : State),
    encode (.sub s0 s1 d) = (0x30#8 + s0.setWidth 8, 16#8 * s1.setWidth 8 + d.setWidth 8) ∧
    decode (0x30#8 + s0.setWidth 8) (16#8 * s1.setWidth 8 + d.setWidth 8) = .instr (.sub s0 s1 d) ∧
    ∃ t, exec (.sub s0 s1 d) s = .next t ∧
      WritesOnlyReg d (BitVec.ofNat 64
        (if (s.readReg s1).toNat ≤ (s.readReg s0).toNat then (s.readReg s0).toNat - (s.readReg s1).toNat
         else (s.readReg s0).toNat + 2 ^ 64 - (s.readReg s1).toNat)) s t

/-- MUL (R149): its two bytes, the low 64 bits of the exact product, its frame. -/
def Obligations.MulWritesTheLowHalfOfTheProduct : Prop :=
  ∀ (s0 s1 d : RegIdx) (s : State),
    encode (.mul s0 s1 d) = (0x50#8 + s0.setWidth 8, 16#8 * s1.setWidth 8 + d.setWidth 8) ∧
    decode (0x50#8 + s0.setWidth 8) (16#8 * s1.setWidth 8 + d.setWidth 8) = .instr (.mul s0 s1 d) ∧
    ∃ t, exec (.mul s0 s1 d) s = .next t ∧
      WritesOnlyReg d (BitVec.ofNat 64 ((s.readReg s0).toNat * (s.readReg s1).toNat % 2 ^ 64)) s t

/-- DIV with a non-zero divisor (42_arithmetic.md section 2): its two bytes, the unique quotient `q` with
`q * b <= a < (q + 1) * b`, its frame. -/
def Obligations.DivWritesTheFloorQuotient : Prop :=
  ∀ (s0 s1 d : RegIdx) (s : State),
    encode (.div s0 s1 d) = (0x40#8 + s0.setWidth 8, 16#8 * s1.setWidth 8 + d.setWidth 8) ∧
    decode (0x40#8 + s0.setWidth 8) (16#8 * s1.setWidth 8 + d.setWidth 8) = .instr (.div s0 s1 d) ∧
    (s.readReg s1 ≠ 0#64 →
      ∃ t q, exec (.div s0 s1 d) s = .next t ∧ WritesOnlyReg d q s t ∧
        q.toNat * (s.readReg s1).toNat ≤ (s.readReg s0).toNat ∧
        (s.readReg s0).toNat < (q.toNat + 1) * (s.readReg s1).toNat)

/-- DIV with a zero divisor takes DivisionByZero and has no other effect, whatever the dividend and the destination
(42_arithmetic.md section 2, 60_exceptions.md section 1). That `pc` is kept and the position is the DIV's own offset are the
spec's decisions D4 and D5: log entry 4. -/
def Obligations.DivByZeroTakesTheFaultAndWritesNothing : Prop :=
  ∀ (s0 s1 d : RegIdx) (s : State), s.readReg s1 = 0#64 →
    ∃ t, exec (.div s0 s1 d) s = .next t ∧ TakesFault .divisionByZero 0#4 s t

/-- MOVRES (43_result_and_halt.md section 1): `result` takes the source register, nothing else but `pc` changes, and any
byte1 decodes to the same instruction; that a non-zero byte1 is accepted is the spec's decision D14: log entry 11. -/
def Obligations.MovresCopiesTheRegisterToResult : Prop :=
  ∀ (r : RegIdx) (byte1 : Byte) (s : State),
    encode (.movres r) = (0x60#8 + r.setWidth 8, 0#8) ∧
    decode (0x60#8 + r.setWidth 8) byte1 = .instr (.movres r) ∧
    ∃ t, exec (.movres r) s = .next t ∧ WritesOnlyResult (s.readReg r) s t

/-- DONE (43_result_and_halt.md section 1): the run state becomes Halted, no register and not `result` change, and the core
has no further step; every pair with operation code 0 is a DONE. That `pc` advances past the DONE is the spec's decision D5:
log entry 5. -/
def Obligations.DoneHaltsAndWritesNothing : Prop :=
  ∀ (low : Nibble) (byte1 : Byte) (s : State),
    encode .done = (0x00#8, 0x00#8) ∧
    decode (low.setWidth 8) byte1 = .instr .done ∧
    ∃ t, exec .done s = .next t ∧ t.runState = .halted ∧ SameRegs s t ∧ t.result = s.result ∧ t.fault = s.fault ∧
      t.pc = s.pc + 2 ∧ SameProgram s t ∧ step t = .fault .noStepInHalted

/-- The fetch (R121): fewer than 2 bytes left, the step takes UnexpectedEndOfProgram at `pc` and does nothing else, before
any bit of an instruction is looked at; otherwise the fetch gives the bytes at `pc` and `pc + 1`. (That the error is held in
a record of the state is the model's form, log entry 7; R121 names the error and its position.) -/
def Obligations.FetchPastTheEndTakesTheFaultFirst : Prop :=
  ∀ s : State, s.runState = .running →
    (s.progLen - s.pc < 2 → ∃ t, step s = .next t ∧ t.runState = .failed ∧
      t.fault.kind = .unexpectedEndOfProgram ∧ t.fault.position = s.pc ∧
      SameRegs s t ∧ t.result = s.result ∧ t.pc = s.pc ∧ SameProgram s t) ∧
    (2 ≤ s.progLen - s.pc → ∃ byte0 byte1, s.fetch = some (byte0, byte1) ∧
      s.progByte s.pc = some byte0 ∧ s.progByte (s.pc + 1) = some byte1)

/-- The reserved space (R94): operation codes 7 to 15 raise UnknownOpcode whatever the other twelve bits are; every word with
operation code 0 to 6 is an instruction, which the step runs. (The error's form as a record: log entry 7; its payload is
stated apart, in UnknownOpcodeRecordsCodeAndPosition.) -/
def Obligations.ReservedOpcodesAlwaysFault : Prop :=
  ∀ (s : State) (byte0 byte1 : Byte),
    s.runState = .running → s.progByte s.pc = some byte0 → s.progByte (s.pc + 1) = some byte1 →
    (7 ≤ (byte0.extractLsb' 4 4).toNat →
      ∃ t, step s = .next t ∧ t.runState = .failed ∧ t.fault.kind = .unknownOpcode) ∧
    ((byte0.extractLsb' 4 4).toNat ≤ 6 → ∃ i, decode byte0 byte1 = .instr i ∧ step s = exec i s)

/-- What UnknownOpcode records and leaves (60_exceptions.md section 1): the 4-bit operation code (the spec's decision D6, log
entry 6) and the offset of the offending instruction, `pc` kept (decisions D4 and D5, log entry 4). -/
def Obligations.UnknownOpcodeRecordsCodeAndPosition : Prop :=
  ∀ (s : State) (byte0 byte1 : Byte),
    s.runState = .running → s.progByte s.pc = some byte0 → s.progByte (s.pc + 1) = some byte1 →
    7 ≤ (byte0.extractLsb' 4 4).toNat →
      ∃ t, step s = .next t ∧ TakesFault .unknownOpcode (byte0.extractLsb' 4 4) s t

/-- Faults are precise and fatal (60_exceptions.md sections 1 and 3): whatever fault a step takes, it changes the run state
and the fault record only, and there is no step after it. That `pc` is kept and is the position are decisions D4 and D5: log
entry 4. -/
def Obligations.EveryFaultIsPreciseAndFatal : Prop :=
  ∀ s t : State, step s = .next t → t.runState = .failed →
    t.fault.kind ≠ .none ∧ TakesFault t.fault.kind t.fault.code s t ∧ step t = .fault .noStepInFailed

/-- What a step writes back, by the operation code of the two bytes fetched (R125). A step that raises a fault writes
nothing. -/
def Obligations.WriteBackIsSelectedByTheOpcode : Prop :=
  ∀ s : State, s.runState = .running →
    (∀ byte0 byte1, s.fetch = some (byte0, byte1) →
      ∃ t, step s = .next t ∧
        (∀ r, t.readReg r =
          match (splitFields byte0 byte1).op.toNat with
          | 1 => if r = (splitFields byte0 byte1).reg0 then BitVec.ofNat 64 byte1.toNat else s.readReg r
          | 2 => if r = (splitFields byte0 byte1).reg2
              then s.readReg (splitFields byte0 byte1).reg0 + s.readReg (splitFields byte0 byte1).reg1 else s.readReg r
          | 3 => if r = (splitFields byte0 byte1).reg2
              then s.readReg (splitFields byte0 byte1).reg0 - s.readReg (splitFields byte0 byte1).reg1 else s.readReg r
          | 4 => if r = (splitFields byte0 byte1).reg2 ∧ s.readReg (splitFields byte0 byte1).reg1 ≠ 0#64
              then s.readReg (splitFields byte0 byte1).reg0 / s.readReg (splitFields byte0 byte1).reg1 else s.readReg r
          | 5 => if r = (splitFields byte0 byte1).reg2
              then s.readReg (splitFields byte0 byte1).reg0 * s.readReg (splitFields byte0 byte1).reg1 else s.readReg r
          | _ => s.readReg r) ∧
        t.result = if (splitFields byte0 byte1).op = 6#4 then s.readReg (splitFields byte0 byte1).reg0 else s.result) ∧
    (s.fetch = none → ∃ t, step s = .next t ∧ SameRegs s t ∧ t.result = s.result)

/-- The program counter increment (40_fetch_decode_dispatch.md section 1): every step that takes no fault adds 2, DONE
included, and a step that takes one keeps `pc` (decision D5: log entries 4 and 5). -/
def Obligations.PcAdvancesByTwoExceptOnFaults : Prop :=
  ∀ s t : State, step s = .next t → t.pc = if t.runState = .failed then s.pc else s.pc + 2

/-- The transitions of the run state under a step (10_state.md section 5): a step leaves Running only by a DONE or by one of
the three faults, each with its cause. -/
def Obligations.StepLeavesRunningOnlyByDoneOrFault : Prop :=
  ∀ s t : State, step s = .next t →
    s.runState = .running ∧
    (t.runState = .running ∨ t.runState = .halted ∨ t.runState = .failed) ∧
    (t.runState = .halted ↔ ∃ byte0 byte1, s.fetch = some (byte0, byte1) ∧ decode byte0 byte1 = .instr .done) ∧
    (t.runState = .failed ↔
      s.progLen - s.pc < 2 ∨
      (∃ byte0 byte1 op, s.fetch = some (byte0, byte1) ∧ decode byte0 byte1 = .reservedOpcode op) ∨
      (∃ byte0 byte1 a b d, s.fetch = some (byte0, byte1) ∧ decode byte0 byte1 = .instr (.div a b d) ∧
        s.readReg b = 0#64))

/-- No step changes the program (20_memory.md sections 1 and 7; decision D3: log entry 13). -/
def Obligations.NoStepWritesTheProgram : Prop :=
  ∀ s t : State, step s = .next t → t.prog = s.prog ∧ t.progLen = s.progLen ∧ SameProgram s t

/-- The shape of the state, kept by every step from every state that has it (10_state.md sections 3 to 5). -/
def Obligations.EveryStepKeepsTheInvariant : Prop :=
  ∀ s t : State, s.Inv → step s = .next t → t.Inv

/-- The state after reset has the shape, and no ended run to account for (10_state.md section 9). -/
def Obligations.ResetSatisfiesTheInvariant : Prop :=
  State.reset.Inv ∧ State.reset.EndedForCause

/-- The host's moves establish or keep the shape (50_block_interfaces.md section 2): the start of a run from any state
whatever, reset from a state that has it. -/
def Obligations.HostMovesKeepTheInvariant : Prop :=
  (∀ bytes s, (beginRun bytes s).Inv ∧ (beginRun bytes s).EndedForCause) ∧
  (∀ s t, s.Inv → hostReset s = .next t → t.Inv ∧ t.EndedForCause)

/-- An ended run shows its true cause (10_state.md section 3, 43_result_and_halt.md section 1, 60_exceptions.md section 1):
kept by every step. Positions as in log entries 4 and 5. -/
def Obligations.EveryStepKeepsTheCauseOfTheEnd : Prop :=
  ∀ s t : State, s.Inv → s.EndedForCause → step s = .next t → t.EndedForCause

/-- The host's reset (70_reset_and_hazards.md section 1): outside Running it always succeeds and leaves every piece of state
at its reset value; the fault record is cleared by decision D9 (log entry 7), the program bytes are left alone (log entry
17). -/
def Obligations.HostResetLeavesTheResetValues : Prop :=
  ∀ s : State, s.runState ≠ .running →
    ∃ t, hostReset s = .next t ∧ t.pc = 0 ∧ (∀ r, t.readReg r = 0#64) ∧ t.result = 0#64 ∧ t.runState = .idle ∧
      t.fault = { kind := .none, code := 0#4, position := 0 } ∧ SameProgram s t

/-- In Running the host has no move, elsewhere it may read `result` (50_block_interfaces.md section 2; decisions D10 and D22:
log entries 9 and 19). -/
def Obligations.HostHasNoMoveWhileRunning : Prop :=
  ∀ (bytes : List Byte) (s : State),
    (s.runState = .running →
      hostReset s = .fault .noHostMoveWhileRunning ∧ hostRun bytes s = .fault .noHostMoveWhileRunning ∧
      hostReadResult s = .fault .noHostMoveWhileRunning) ∧
    (s.runState ≠ .running → hostReadResult s = .next s.result)

/-- The start of a run (40_fetch_decode_dispatch.md section 2): the program store holds exactly the bytes handed over and the
rest is reset, whatever the state before. -/
def Obligations.RunBindsExactlyTheBytes : Prop :=
  ∀ (bytes : List Byte) (s : State),
    (∀ a, (beginRun bytes s).progByte a = bytes[a]?) ∧ (beginRun bytes s).progLen = bytes.length ∧
    (beginRun bytes s).runState = .running ∧ (beginRun bytes s).pc = 0 ∧
    (∀ r, (beginRun bytes s).readReg r = 0#64) ∧ (beginRun bytes s).result = 0#64 ∧
    (beginRun bytes s).fault = FaultRecord.cleared

/-- A run is a function of the program bytes alone (R129): its state after any number of steps, and what the host's run
answers, are the same whatever came before. -/
def Obligations.RunDependsOnTheBytesAlone : Prop :=
  ∀ (bytes : List Byte) (s s' : State),
    (∀ k, stateAfter bytes k s = stateAfter bytes k s') ∧
    (s.runState ≠ .running → s'.runState ≠ .running → hostRun bytes s = hostRun bytes s')

/-- Bytes that execution has not reached have no effect (20_memory.md section 5, derived there): two programs that agree in
their first `2k` bytes leave the same registers, `result`, `pc`, run state and fault record after `k` steps, whatever
follows those bytes, however long the programs are, and whatever came before the runs. -/
def Obligations.UnreachedBytesHaveNoEffect : Prop :=
  ∀ (bytes bytes' : List Byte) (s s' : State) (k : Nat),
    2 * k ≤ bytes.length → 2 * k ≤ bytes'.length → bytes.take (2 * k) = bytes'.take (2 * k) →
    SameRegs (stateAfter bytes k s) (stateAfter bytes' k s') ∧
    (stateAfter bytes k s).result = (stateAfter bytes' k s').result ∧
    (stateAfter bytes k s).pc = (stateAfter bytes' k s').pc ∧
    (stateAfter bytes k s).runState = (stateAfter bytes' k s').runState ∧
    (stateAfter bytes k s).fault = (stateAfter bytes' k s').fault

/-- Step number `k` of a run, counting from 0, fetches at offset `2k` (40_fetch_decode_dispatch.md section 2, of which the
spec says that it is derived). -/
def Obligations.StepNumberKFetchesAtTwoK : Prop :=
  ∀ (bytes : List Byte) (s : State) (k : Nat),
    (stateAfter bytes k s).runState = .running → (stateAfter bytes k s).pc = 2 * k

/-- Every run ends within `floor(L/2) + 1` steps, in Halted or in Failed (00_scope.md section 7, 40_fetch_decode_dispatch.md
section 2, derived there). -/
def Obligations.EveryRunEndsWithinTheBound : Prop :=
  ∀ (bytes : List Byte) (s : State) (k : Nat), bytes.length / 2 + 1 ≤ k →
    (stateAfter bytes k s).runState = .halted ∨ (stateAfter bytes k s).runState = .failed

/-- A run ends in Halted exactly when a DONE stands at some even offset and every instruction before it goes on
(40_fetch_decode_dispatch.md section 2, derived there). -/
def Obligations.RunHaltsExactlyAtAReachedDone : Prop :=
  ∀ (bytes : List Byte) (s : State),
    (stateAfter bytes (stepBound bytes) s).runState = .halted ↔
      ∃ p byte0 byte1, bytes[2 * p]? = some byte0 ∧ bytes[2 * p + 1]? = some byte1 ∧ byte0.extractLsb' 4 4 = 0#4 ∧
        ∀ j, j < p → ∃ c0 c1, bytes[2 * j]? = some c0 ∧ bytes[2 * j + 1]? = some c1 ∧
          goesOn (stateAfter bytes j s) (splitFields c0 c1)

/-- The host's run is the blocking loop (40_fetch_decode_dispatch.md section 2): for a program that fits the program counter
(decision D2: log entry 3), started outside Running, it returns in the first state of the run that is not Running, and hands
back the result or the typed error. -/
def Obligations.HostRunReturnsAtTheEndOfTheRun : Prop :=
  ∀ (bytes : List Byte) (s : State), s.runState ≠ .running → bytes.length ≤ Config.maxProgramLength →
    ∃ k t, hostRun bytes s = .next t ∧ t = stateAfter bytes k s ∧
      (∀ j, j < k → (stateAfter bytes j s).runState = .running ∧
        step (stateAfter bytes j s) = .next (stateAfter bytes (j + 1) s)) ∧
      ((t.runState = .halted ∧ runReturn t = some (.success t.result)) ∨
       (t.runState = .failed ∧ t.fault.kind ≠ .none ∧
        runReturn t = some (.error t.fault.kind t.fault.code t.fault.position)))

/-- A register that no completed instruction of the run has written holds 0 (R24). -/
def Obligations.UnwrittenRegistersReadZero : Prop :=
  ∀ (bytes : List Byte) (s : State) (k : Nat) (r : RegIdx),
    (∀ j, j < k → ∀ f, fieldsAt (stateAfter bytes j s) = some f → goesOn (stateAfter bytes j s) f → destOf f ≠ some r) →
    (stateAfter bytes k s).readReg r = 0#64

/-- `result` is the operand value of the last MOVRES executed in the run, or 0 if none executed (R162). -/
def Obligations.ResultIsTheLastMovresOrZero : Prop :=
  ∀ (bytes : List Byte) (s : State) (k : Nat),
    ((∀ j, j < k → ∀ f, fieldsAt (stateAfter bytes j s) = some f → f.op ≠ 6#4) →
      (stateAfter bytes k s).result = 0#64) ∧
    (∀ j f, j < k → fieldsAt (stateAfter bytes j s) = some f → f.op = 6#4 →
      (∀ m, j < m → m < k → ∀ g, fieldsAt (stateAfter bytes m s) = some g → g.op ≠ 6#4) →
      (stateAfter bytes k s).result = (stateAfter bytes j s).readReg f.reg0)

/-- LOADI of a non-zero immediate is the only source of non-zero values in a run (41_load_immediate.md, derived there). -/
def Obligations.OnlyLoadiBringsNonZeroValues : Prop :=
  ∀ (bytes : List Byte) (s : State) (k : Nat),
    (∀ j, j < k → ∀ f, fieldsAt (stateAfter bytes j s) = some f → f.op = 1#4 → f.imm8 = 0#8) →
    (∀ r, (stateAfter bytes k s).readReg r = 0#64) ∧ (stateAfter bytes k s).result = 0#64

/-- The laws of the arithmetic instructions (42_arithmetic.md section 3, derived there): ADD and MUL commute in their
sources; SUB then ADD of the same value restores; MUL by `2^k` is a left shift and DIV by `2^k` a logical right shift. -/
def Obligations.ArithmeticLawsHoldOfTheInstructions : Prop :=
  ∀ (s0 s1 d : RegIdx) (s : State),
    exec (.add s0 s1 d) s = exec (.add s1 s0 d) s ∧
    exec (.mul s0 s1 d) s = exec (.mul s1 s0 d) s ∧
    (d ≠ s1 → ∃ t u, exec (.sub s0 s1 d) s = .next t ∧ exec (.add d s1 d) t = .next u ∧
      u.readReg d = s.readReg s0) ∧
    (∀ k, k < 64 → s.readReg s1 = BitVec.ofNat 64 (2 ^ k) →
      (∃ t, exec (.mul s0 s1 d) s = .next t ∧ t.readReg d = s.readReg s0 <<< k) ∧
      (∃ t, exec (.div s0 s1 d) s = .next t ∧ t.readReg d = s.readReg s0 >>> k))

/-- The four sub-blocks compute the step (50_block_interfaces.md section 1; the signals are the spec's decisions D11 and D12:
log entry 18). -/
def Obligations.DatapathComputesTheStep : Prop :=
  ∀ s : State, s.runState = .running → step s = .next (datapathStep s)

/-- Of the dispatch multiplexer's four kinds of effect exactly one is active, for all fields and operands
(50_block_interfaces.md section 1, derived there). -/
def Obligations.DispatchActivatesExactlyOneEffect : Prop :=
  ∀ (f : Fields) (a b : Word),
    (dispatchMux f a b).rfWe.toNat + (dispatchMux f a b).resWe.toNat + (dispatchMux f a b).halt.toNat +
      (decide ((dispatchMux f a b).faultKind ≠ .none)).toNat = 1

/-- A table word placed by withFetchWord is the instruction that the next step runs, from every state with a canonical
program store; how a program comes to run is the model's choice, log entry 10 (40_fetch_decode_dispatch.md section 2). -/
def Obligations.PlacedWordIsTheNextInstruction : Prop :=
  ∀ (s : State) (nbits w : Nat) (i : Instr), Memory.wf s.prog = true → decodeTableWord nbits w = some i →
    step (s.withFetchWord nbits w) = exec i (s.withFetchWord nbits w) ∧
    Memory.wf (s.withFetchWord nbits w).prog = true
end

