-- ==== Sys2Proof/Laws/Decode.lean ====
section
/-! SUPPORT. The decoder: the fields of two bytes laid side by side, and what each operation code decodes to. -/

namespace Sys2Proof

theorem joinNibbles_high : ∀ hi lo : Nibble, (joinNibbles hi lo).extractLsb' 4 4 = hi := by decide

theorem joinNibbles_low : ∀ hi lo : Nibble, (joinNibbles hi lo).extractLsb' 0 4 = lo := by decide

theorem splitFields_op_join (hi lo : Nibble) (b : Byte) : (splitFields (joinNibbles hi lo) b).op = hi :=
  joinNibbles_high hi lo

theorem splitFields_reg0_join (hi lo : Nibble) (b : Byte) : (splitFields (joinNibbles hi lo) b).reg0 = lo :=
  joinNibbles_low hi lo

theorem splitFields_reg1_join (a : Byte) (hi lo : Nibble) : (splitFields a (joinNibbles hi lo)).reg1 = hi :=
  joinNibbles_high hi lo

theorem splitFields_reg2_join (a : Byte) (hi lo : Nibble) : (splitFields a (joinNibbles hi lo)).reg2 = lo :=
  joinNibbles_low hi lo

@[simp] theorem splitFields_imm8 (a b : Byte) : (splitFields a b).imm8 = b := rfl

/-- What the dispatch makes of the fields, once for all operation codes. -/
theorem selectInstr_cases (f : Fields) :
    (f.op = 0#4 ∧ selectInstr f = .instr .done) ∨
    (f.op = 1#4 ∧ selectInstr f = .instr (.loadi f.reg0 f.imm8)) ∨
    (f.op = 2#4 ∧ selectInstr f = .instr (.add f.reg0 f.reg1 f.reg2)) ∨
    (f.op = 3#4 ∧ selectInstr f = .instr (.sub f.reg0 f.reg1 f.reg2)) ∨
    (f.op = 4#4 ∧ selectInstr f = .instr (.div f.reg0 f.reg1 f.reg2)) ∨
    (f.op = 5#4 ∧ selectInstr f = .instr (.mul f.reg0 f.reg1 f.reg2)) ∨
    (f.op = 6#4 ∧ selectInstr f = .instr (.movres f.reg0)) ∨
    (7 ≤ f.op.toNat ∧ selectInstr f = .reservedOpcode f.op) := by
  have hop : ∀ n (_ : n < 16), f.op.toNat = n → f.op = BitVec.ofNat 4 n := fun n _ h =>
    BitVec.eq_of_toNat_eq (by simp [h]; omega)
  unfold selectInstr
  split
  · next h => exact .inl ⟨hop 0 (by omega) h, rfl⟩
  · next h => exact .inr (.inl ⟨hop 1 (by omega) h, rfl⟩)
  · next h => exact .inr (.inr (.inl ⟨hop 2 (by omega) h, rfl⟩))
  · next h => exact .inr (.inr (.inr (.inl ⟨hop 3 (by omega) h, rfl⟩)))
  · next h => exact .inr (.inr (.inr (.inr (.inl ⟨hop 4 (by omega) h, rfl⟩))))
  · next h => exact .inr (.inr (.inr (.inr (.inr (.inl ⟨hop 5 (by omega) h, rfl⟩)))))
  · next h => exact .inr (.inr (.inr (.inr (.inr (.inr (.inl ⟨hop 6 (by omega) h, rfl⟩))))))
  · next h0 h1 h2 h3 h4 h5 h6 =>
    refine .inr (.inr (.inr (.inr (.inr (.inr (.inr ⟨?_, rfl⟩))))))
    have a0 : f.op.toNat ≠ 0 := h0
    have a1 : f.op.toNat ≠ 1 := h1
    have a2 : f.op.toNat ≠ 2 := h2
    have a3 : f.op.toNat ≠ 3 := h3
    have a4 : f.op.toNat ≠ 4 := h4
    have a5 : f.op.toNat ≠ 5 := h5
    have a6 : f.op.toNat ≠ 6 := h6
    omega

end Sys2Proof
end

