-- ==== Sys2Proof/Laws/Memory.lean ====
section
/-! SUPPORT. The program store: every operation keeps the canonical form, a read after a write, and what a bound sequence of
bytes reads as. -/

namespace Sys2Proof.Machine

theorem Memory.wfFrom_mono {lo lo' : Nat} (h : lo' ≤ lo) : ∀ {m : Memory}, Memory.wfFrom lo m = true →
    Memory.wfFrom lo' m = true
  | [], _ => rfl
  | (k, b) :: m, hm => by
    simp only [Memory.wfFrom, Bool.and_eq_true, decide_eq_true_eq] at hm ⊢
    exact ⟨⟨by omega, hm.1.2⟩, hm.2⟩

theorem Memory.write_wfFrom {lo a : Nat} (v : Byte) (ha : lo ≤ a) : ∀ {m : Memory}, Memory.wfFrom lo m = true →
    Memory.wfFrom lo (Memory.write m a v) = true
  | [], _ => by
    by_cases hv : v = Memory.unlisted <;> simp [Memory.write, Memory.wfFrom, hv, ha]
  | (k, b) :: m, hm => by
    simp only [Memory.wfFrom, Bool.and_eq_true, decide_eq_true_eq] at hm
    obtain ⟨⟨hk, hb⟩, hm⟩ := hm
    by_cases h1 : k < a
    · simp [Memory.write, h1, Memory.wfFrom, hk, hb, Memory.write_wfFrom (lo := k + 1) v h1 hm]
    · by_cases h2 : k = a
      · subst h2
        by_cases hv : v = Memory.unlisted
        · simpa [Memory.write, hv] using Memory.wfFrom_mono (by omega) hm
        · simp [Memory.write, hv, Memory.wfFrom, hk, hm]
      · by_cases hv : v = Memory.unlisted
        · simp [Memory.write, h1, h2, hv, Memory.wfFrom, hk, hb, hm]
        · have h3 : a + 1 ≤ k := by omega
          simp [Memory.write, h1, h2, hv, Memory.wfFrom, ha, h3, hb, hm]

/-- A write keeps the canonical form. -/
theorem Memory.write_wf {m : Memory} (h : Memory.wf m = true) (a : Nat) (v : Byte) :
    Memory.wf (Memory.write m a v) = true :=
  Memory.write_wfFrom v (Nat.zero_le a) h

theorem Memory.ofBytes_wfFrom : ∀ (a : Nat) (bs : List Byte), Memory.wfFrom a (Memory.ofBytes a bs) = true
  | _, [] => rfl
  | a, b :: bs => by
    by_cases hb : b = Memory.unlisted
    · simpa [Memory.ofBytes, hb] using Memory.wfFrom_mono (Nat.le_succ a) (Memory.ofBytes_wfFrom (a + 1) bs)
    · simp [Memory.ofBytes, hb, Memory.wfFrom, Memory.ofBytes_wfFrom (a + 1) bs]

/-- Binding a program makes a canonical store. -/
theorem Memory.ofBytes_wf (bs : List Byte) : Memory.wf (Memory.ofBytes 0 bs) = true :=
  Memory.ofBytes_wfFrom 0 bs

theorem Memory.read_of_wfFrom_lt {lo a : Nat} (h : a < lo) : ∀ {m : Memory}, Memory.wfFrom lo m = true →
    Memory.read m a = Memory.unlisted
  | [], _ => rfl
  | (k, b) :: m, hm => by
    simp only [Memory.wfFrom, Bool.and_eq_true, decide_eq_true_eq] at hm
    have hk : ¬ k = a := by omega
    simp only [Memory.read, hk, if_false]
    exact Memory.read_of_wfFrom_lt (by omega) hm.2

theorem Memory.read_write_from {lo : Nat} (a c : Nat) (v : Byte) : ∀ {m : Memory}, Memory.wfFrom lo m = true →
    Memory.read (Memory.write m a v) c = if c = a then v else Memory.read m c
  | [], _ => by
    by_cases hv : v = Memory.unlisted <;> by_cases h : c = a <;> simp [Memory.write, Memory.read, hv, h, eq_comm]
    exact fun e => absurd e.symm h
  | (k, b) :: m, hm => by
    simp only [Memory.wfFrom, Bool.and_eq_true, decide_eq_true_eq] at hm
    obtain ⟨-, hm⟩ := hm
    have ih := Memory.read_write_from a c v hm
    by_cases h1 : k < a
    · by_cases h : k = c
      · subst h
        have : ¬ k = a := by omega
        simp [Memory.write, h1, Memory.read, this]
      · simp [Memory.write, h1, Memory.read, h, ih]
    · by_cases h2 : k = a
      · subst h2
        by_cases hc : c = k
        · subst hc
          by_cases hv : v = Memory.unlisted
          · simp [Memory.write, hv, Memory.read_of_wfFrom_lt (Nat.lt_succ_self c) hm]
          · simp [Memory.write, hv, Memory.read]
        · have hc' : ¬ k = c := fun e => hc e.symm
          by_cases hv : v = Memory.unlisted <;> simp [Memory.write, hv, Memory.read, hc, hc']
      · have h3 : a < k := by omega
        by_cases hv : v = Memory.unlisted
        · by_cases hc : c = a
          · subst hc
            simp [Memory.write, h1, h2, hv, Memory.read,
              Memory.read_of_wfFrom_lt (show c < k + 1 by omega) hm]
          · simp [Memory.write, h1, h2, hv, hc]
        · by_cases hc : c = a
          · subst hc
            simp [Memory.write, h1, h2, hv, Memory.read]
          · have hc' : ¬ a = c := fun e => hc e.symm
            simp [Memory.write, h1, h2, hv, Memory.read, hc, hc']

/-- A read after a write: the offset written reads as the value written, every other one as before. -/
theorem Memory.read_write {m : Memory} (h : Memory.wf m = true) (a c : Nat) (v : Byte) :
    Memory.read (Memory.write m a v) c = if c = a then v else Memory.read m c :=
  Memory.read_write_from a c v h

theorem Memory.write_below {n a : Nat} (v : Byte) (ha : a < n) : ∀ {m : Memory}, Memory.below n m = true →
    Memory.below n (Memory.write m a v) = true
  | [], _ => by
    by_cases hv : v = Memory.unlisted <;> simp [Memory.write, Memory.below, hv, ha]
  | (k, b) :: m, hm => by
    have hm' : k < n ∧ Memory.below n m = true := by
      simpa [Memory.below] using hm
    have ih : Memory.below n (Memory.write m a v) = true := Memory.write_below v ha hm'.2
    unfold Memory.write
    split
    · simpa [Memory.below] using And.intro hm'.1 (by simpa [Memory.below] using ih)
    · split
      · split
        · exact hm'.2
        · simpa [Memory.below] using And.intro ha (by simpa [Memory.below] using hm'.2)
      · split
        · exact hm
        · simpa [Memory.below] using And.intro ha (And.intro hm'.1 (by simpa [Memory.below] using hm'.2))

theorem Memory.below_mono {n n' : Nat} (h : n ≤ n') {m : Memory} (hm : Memory.below n m = true) :
    Memory.below n' m = true := by
  simp only [Memory.below, List.all_eq_true, decide_eq_true_eq] at hm ⊢
  exact fun c hc => Nat.lt_of_lt_of_le (hm c hc) h

theorem Memory.ofBytes_below : ∀ (a : Nat) (bs : List Byte),
    Memory.below (a + bs.length) (Memory.ofBytes a bs) = true
  | _, [] => rfl
  | a, b :: bs => by
    have ih := Memory.ofBytes_below (a + 1) bs
    have e : a + 1 + bs.length = a + (b :: bs).length := by simp; omega
    rw [e] at ih
    unfold Memory.ofBytes
    split
    · exact ih
    · simpa [Memory.below] using ih

/-- What a bound sequence of bytes reads as: its byte inside it, the unlisted byte past its end. -/
theorem Memory.read_ofBytes : ∀ (a : Nat) (bs : List Byte) (i : Nat),
    Memory.read (Memory.ofBytes a bs) (a + i) = bs.getD i Memory.unlisted
  | _, [], _ => by simp [Memory.ofBytes, Memory.read]
  | a, b :: bs, 0 => by
    have h := Memory.read_of_wfFrom_lt (Nat.lt_succ_self a) (Memory.ofBytes_wfFrom (a + 1) bs)
    by_cases hb : b = Memory.unlisted
    · simpa [Memory.ofBytes, hb] using h
    · simp [Memory.ofBytes, hb, Memory.read]
  | a, b :: bs, i + 1 => by
    have ih := Memory.read_ofBytes (a + 1) bs i
    have e : a + 1 + i = a + (i + 1) := by omega
    rw [e] at ih
    by_cases hb : b = Memory.unlisted
    · simpa [Memory.ofBytes, hb] using ih
    · have : ¬ a = a + (i + 1) := by omega
      simpa [Memory.ofBytes, hb, Memory.read, this] using ih

/-- The fetch in terms of the bytes of the program: it gives two bytes exactly when both offsets have one. -/
theorem fetch_eq_some_iff (s : State) (b0 b1 : Byte) :
    s.fetch = some (b0, b1) ↔ s.progByte s.pc = some b0 ∧ s.progByte (s.pc + 1) = some b1 := by
  unfold State.fetch State.progByte
  by_cases h : s.progLen - s.pc < 2
  · have : ¬ s.pc + 1 < s.progLen := by omega
    simp [h, this]
  · have h1 : s.pc + 1 < s.progLen := by omega
    have h0 : s.pc < s.progLen := by omega
    simp [h, h0, h1]

theorem fetch_eq_none_iff (s : State) : s.fetch = none ↔ s.progLen - s.pc < 2 := by
  unfold State.fetch
  split <;> simp_all

end Sys2Proof.Machine
end

