-- ==== Sys2Proof/Laws/PerInstr.lean ====
section
/-! SUPPORT. Two families of facts about every instruction as syntax, one lemma per constructor: the operands are in range
(R25, R85), and the encoding carries the operation code in its high nibble with every unused bit zero (R86, R96). -/

namespace Sys2Proof.Laws

/-- The operands of the instruction are in range. -/
def OperandsInRange.Statement (i : Instr) : Prop := i.wellFormed = true

theorem regInRange_toNat (r : RegIdx) : regInRange r.toNat = true := by
  simpa [regInRange] using r.isLt

theorem immInRange_toNat (k : Byte) : immInRange k.toNat = true := by
  simpa [immInRange] using k.isLt

theorem OperandsInRange.done : OperandsInRange.Statement .done := rfl

theorem OperandsInRange.loadi (d : RegIdx) (k : Byte) : OperandsInRange.Statement (.loadi d k) := by
  simp [OperandsInRange.Statement, Instr.wellFormed, Instr.toStmt, Stmt.wellFormed, regInRange_toNat, immInRange_toNat]

theorem OperandsInRange.add (a b c : RegIdx) : OperandsInRange.Statement (.add a b c) := by
  simp [OperandsInRange.Statement, Instr.wellFormed, Instr.toStmt, Stmt.wellFormed, regInRange_toNat]

theorem OperandsInRange.sub (a b c : RegIdx) : OperandsInRange.Statement (.sub a b c) := by
  simp [OperandsInRange.Statement, Instr.wellFormed, Instr.toStmt, Stmt.wellFormed, regInRange_toNat]

theorem OperandsInRange.div (a b c : RegIdx) : OperandsInRange.Statement (.div a b c) := by
  simp [OperandsInRange.Statement, Instr.wellFormed, Instr.toStmt, Stmt.wellFormed, regInRange_toNat]

theorem OperandsInRange.mul (a b c : RegIdx) : OperandsInRange.Statement (.mul a b c) := by
  simp [OperandsInRange.Statement, Instr.wellFormed, Instr.toStmt, Stmt.wellFormed, regInRange_toNat]

theorem OperandsInRange.movres (a : RegIdx) : OperandsInRange.Statement (.movres a) := by
  simp [OperandsInRange.Statement, Instr.wellFormed, Instr.toStmt, Stmt.wellFormed, regInRange_toNat]

/-- The encoding of the instruction has its operation code as `op` and is canonical. -/
def CanonicalEncoding.Statement (i : Instr) : Prop :=
  (splitFields (encode i).1 (encode i).2).op = i.opcode ∧ canonicalPair (encode i).1 (encode i).2 = true

theorem CanonicalEncoding.done : CanonicalEncoding.Statement .done := by
  simp [CanonicalEncoding.Statement, encode, canonicalPair, Instr.opcode, splitFields_op_join, splitFields_reg0_join]

theorem CanonicalEncoding.loadi (d : RegIdx) (k : Byte) : CanonicalEncoding.Statement (.loadi d k) := by
  simp [CanonicalEncoding.Statement, encode, canonicalPair, Instr.opcode, splitFields_op_join]

theorem CanonicalEncoding.add (a b c : RegIdx) : CanonicalEncoding.Statement (.add a b c) := by
  simp [CanonicalEncoding.Statement, encode, canonicalPair, Instr.opcode, splitFields_op_join]

theorem CanonicalEncoding.sub (a b c : RegIdx) : CanonicalEncoding.Statement (.sub a b c) := by
  simp [CanonicalEncoding.Statement, encode, canonicalPair, Instr.opcode, splitFields_op_join]

theorem CanonicalEncoding.div (a b c : RegIdx) : CanonicalEncoding.Statement (.div a b c) := by
  simp [CanonicalEncoding.Statement, encode, canonicalPair, Instr.opcode, splitFields_op_join]

theorem CanonicalEncoding.mul (a b c : RegIdx) : CanonicalEncoding.Statement (.mul a b c) := by
  simp [CanonicalEncoding.Statement, encode, canonicalPair, Instr.opcode, splitFields_op_join]

theorem CanonicalEncoding.movres (a : RegIdx) : CanonicalEncoding.Statement (.movres a) := by
  simp [CanonicalEncoding.Statement, encode, canonicalPair, Instr.opcode, splitFields_op_join]

end Sys2Proof.Laws
end

