-- ==== Sys2Proof/Laws/State.lean ====
section
/-! SUPPORT. One lemma per field of State and update, and the register file's read after write. -/

namespace Sys2Proof.Machine

section
variable (s : State) (i : RegIdx) (v : Word) (k : FaultKind) (c : Nibble)

@[simp] theorem writeReg_pc : (s.writeReg i v).pc = s.pc := rfl
@[simp] theorem writeReg_result : (s.writeReg i v).result = s.result := rfl
@[simp] theorem writeReg_runState : (s.writeReg i v).runState = s.runState := rfl
@[simp] theorem writeReg_fault : (s.writeReg i v).fault = s.fault := rfl
@[simp] theorem writeReg_prog : (s.writeReg i v).prog = s.prog := rfl
@[simp] theorem writeReg_progLen : (s.writeReg i v).progLen = s.progLen := rfl

@[simp] theorem writeResult_regs : (s.writeResult v).regs = s.regs := rfl
@[simp] theorem writeResult_pc : (s.writeResult v).pc = s.pc := rfl
@[simp] theorem writeResult_result : (s.writeResult v).result = v := rfl
@[simp] theorem writeResult_runState : (s.writeResult v).runState = s.runState := rfl
@[simp] theorem writeResult_fault : (s.writeResult v).fault = s.fault := rfl
@[simp] theorem writeResult_prog : (s.writeResult v).prog = s.prog := rfl
@[simp] theorem writeResult_progLen : (s.writeResult v).progLen = s.progLen := rfl

@[simp] theorem advancePc_regs : s.advancePc.regs = s.regs := rfl
@[simp] theorem advancePc_pc : s.advancePc.pc = s.pc + 2 := rfl
@[simp] theorem advancePc_result : s.advancePc.result = s.result := rfl
@[simp] theorem advancePc_runState : s.advancePc.runState = s.runState := rfl
@[simp] theorem advancePc_fault : s.advancePc.fault = s.fault := rfl
@[simp] theorem advancePc_prog : s.advancePc.prog = s.prog := rfl
@[simp] theorem advancePc_progLen : s.advancePc.progLen = s.progLen := rfl

@[simp] theorem halt_regs : s.halt.regs = s.regs := rfl
@[simp] theorem halt_pc : s.halt.pc = s.pc := rfl
@[simp] theorem halt_result : s.halt.result = s.result := rfl
@[simp] theorem halt_runState : s.halt.runState = .halted := rfl
@[simp] theorem halt_fault : s.halt.fault = s.fault := rfl
@[simp] theorem halt_prog : s.halt.prog = s.prog := rfl
@[simp] theorem halt_progLen : s.halt.progLen = s.progLen := rfl

@[simp] theorem raiseFault_regs : (s.raiseFault k c).regs = s.regs := rfl
@[simp] theorem raiseFault_pc : (s.raiseFault k c).pc = s.pc := rfl
@[simp] theorem raiseFault_result : (s.raiseFault k c).result = s.result := rfl
@[simp] theorem raiseFault_runState : (s.raiseFault k c).runState = .failed := rfl
@[simp] theorem raiseFault_fault :
    (s.raiseFault k c).fault = { kind := k, code := c, position := s.pc } := rfl
@[simp] theorem raiseFault_prog : (s.raiseFault k c).prog = s.prog := rfl
@[simp] theorem raiseFault_progLen : (s.raiseFault k c).progLen = s.progLen := rfl

@[simp] theorem resetCore_regs : s.resetCore.regs = Vector.replicate 16 0#64 := rfl
@[simp] theorem resetCore_pc : s.resetCore.pc = 0 := rfl
@[simp] theorem resetCore_result : s.resetCore.result = 0#64 := rfl
@[simp] theorem resetCore_runState : s.resetCore.runState = .idle := rfl
@[simp] theorem resetCore_fault : s.resetCore.fault = FaultRecord.cleared := rfl
@[simp] theorem resetCore_prog : s.resetCore.prog = s.prog := rfl
@[simp] theorem resetCore_progLen : s.resetCore.progLen = s.progLen := rfl

@[simp] theorem cleared_kind : FaultRecord.cleared.kind = .none := rfl
@[simp] theorem cleared_code : FaultRecord.cleared.code = 0#4 := rfl
@[simp] theorem cleared_position : FaultRecord.cleared.position = 0 := rfl

end

/-- Reads depend on the register file alone. -/
theorem readReg_of_regs_eq {s t : State} (h : t.regs = s.regs) (r : RegIdx) : t.readReg r = s.readReg r := by
  simp only [State.readReg, h]

@[simp] theorem readReg_advancePc (s : State) (r : RegIdx) : s.advancePc.readReg r = s.readReg r := rfl
@[simp] theorem readReg_writeResult (s : State) (v : Word) (r : RegIdx) :
    (s.writeResult v).readReg r = s.readReg r := rfl
@[simp] theorem readReg_halt (s : State) (r : RegIdx) : s.halt.readReg r = s.readReg r := rfl
@[simp] theorem readReg_raiseFault (s : State) (k : FaultKind) (c : Nibble) (r : RegIdx) :
    (s.raiseFault k c).readReg r = s.readReg r := rfl

/-- The register file: the register written reads as the value written, every other one as before. -/
theorem readReg_writeReg (s : State) (i r : RegIdx) (v : Word) :
    (s.writeReg i v).readReg r = if r = i then v else s.readReg r := by
  simp only [State.readReg, State.writeReg, Vector.getElem_set]
  by_cases h : r = i
  · simp [h]
  · have h' : ¬ i.toNat = r.toNat := fun e => h (BitVec.eq_of_toNat_eq e.symm)
    simp [h, h']

@[simp] theorem readReg_writeReg_same (s : State) (i : RegIdx) (v : Word) : (s.writeReg i v).readReg i = v := by
  simp [readReg_writeReg]

theorem readReg_writeReg_other (s : State) {i r : RegIdx} (v : Word) (h : r ≠ i) :
    (s.writeReg i v).readReg r = s.readReg r := by
  simp [readReg_writeReg, h]

/-- Every register reads 0 after reset (R39). -/
@[simp] theorem readReg_resetCore (s : State) (r : RegIdx) : s.resetCore.readReg r = 0#64 := by
  simp [State.readReg]

end Sys2Proof.Machine
end

