-- ==== Sys2Proof/Laws/Step.lean ====
section
/-! SUPPORT. What each meaning and one step can do, said once. -/

namespace Sys2Proof.Machine

/-- The operand-independent shape of every meaning: it writes one register and advances, writes `result` and advances, halts
and advances, or (DIV only) takes DivisionByZero. -/
theorem exec_cases (i : Instr) (s : State) :
    (∃ d v, exec i s = .next (s.writeReg d v).advancePc) ∨
    (∃ r, i = .movres r ∧ exec i s = .next (s.writeResult (s.readReg r)).advancePc) ∨
    (i = .done ∧ exec i s = .next s.halt.advancePc) ∨
    (∃ a b d, i = .div a b d ∧ s.readReg b = 0#64 ∧ exec i s = .next (s.raiseFault .divisionByZero 0#4)) := by
  cases i with
  | done => exact .inr (.inr (.inl ⟨rfl, rfl⟩))
  | loadi d k => exact .inl ⟨_, _, rfl⟩
  | add a b d => exact .inl ⟨_, _, rfl⟩
  | sub a b d => exact .inl ⟨_, _, rfl⟩
  | mul a b d => exact .inl ⟨_, _, rfl⟩
  | movres r => exact .inr (.inl ⟨r, rfl, rfl⟩)
  | div a b d =>
    by_cases h : s.readReg b = 0#64
    · exact .inr (.inr (.inr ⟨a, b, d, rfl, h, by simp [exec, execDiv, isZero, h]⟩))
    · exact .inl ⟨d, quotOf (s.readReg a) (s.readReg b), by simp [exec, execDiv, isZero, h]⟩

/-- In Running, the front of a step in its three cases: the fetch fault, a reserved operation code, an instruction. -/
theorem step_running_cases {s : State} (hr : s.runState = .running) :
    (s.fetch = none ∧ step s = .next (s.raiseFault .unexpectedEndOfProgram 0#4)) ∨
    (∃ b0 b1 op, s.fetch = some (b0, b1) ∧ decode b0 b1 = .reservedOpcode op ∧
      step s = .next (s.raiseFault .unknownOpcode op)) ∨
    (∃ b0 b1 i, s.fetch = some (b0, b1) ∧ decode b0 b1 = .instr i ∧ step s = exec i s) := by
  cases hf : s.fetch with
  | none => exact .inl ⟨rfl, by simp [step, stepFront, hr, hf]⟩
  | some p =>
    obtain ⟨b0, b1⟩ := p
    cases hd : decode b0 b1 with
    | reservedOpcode op => exact .inr (.inl ⟨b0, b1, op, rfl, hd, by simp [step, stepFront, hr, hf, hd]⟩)
    | instr i => exact .inr (.inr ⟨b0, b1, i, rfl, hd, by simp [step, stepFront, hr, hf, hd]⟩)

/-- Every meaning answers a next state. -/
theorem exec_answers_next (i : Instr) (s : State) : ∃ t, exec i s = .next t := by
  rcases exec_cases i s with ⟨_, _, h⟩ | ⟨_, _, h⟩ | ⟨_, h⟩ | ⟨_, _, _, _, _, h⟩ <;> exact ⟨_, h⟩

/-- In Running a step answers a next state. -/
theorem step_answers_next {s : State} (hr : s.runState = .running) : ∃ t, step s = .next t := by
  rcases step_running_cases hr with ⟨_, h⟩ | ⟨_, _, _, _, _, h⟩ | ⟨_, _, i, _, _, h⟩
  · exact ⟨_, h⟩
  · exact ⟨_, h⟩
  · obtain ⟨t, e⟩ := exec_answers_next i s
    exact ⟨t, h.trans e⟩

/-- A step that answers a next state was taken in Running. -/
theorem running_of_step {s t : State} (h : step s = .next t) : s.runState = .running := by
  cases hr : s.runState <;> simp [step, stepFront, hr] at h ⊢

/-- Everything a step can do: the fetch fault, a reserved operation code, or the decoded instruction's register write,
write of `result`, halt, or division fault, each with its guard. -/
theorem step_inversion {s t : State} (h : step s = .next t) :
    (s.fetch = none ∧ t = s.raiseFault .unexpectedEndOfProgram 0#4) ∨
    (∃ b0 b1 op, s.fetch = some (b0, b1) ∧ decode b0 b1 = .reservedOpcode op ∧ t = s.raiseFault .unknownOpcode op) ∨
    (∃ b0 b1 i, s.fetch = some (b0, b1) ∧ decode b0 b1 = .instr i ∧ exec i s = .next t ∧
      ((∃ d v, i ≠ .done ∧ (∀ a b c, i = .div a b c → s.readReg b ≠ 0#64) ∧ t = (s.writeReg d v).advancePc) ∨
       (∃ r, i = .movres r ∧ t = (s.writeResult (s.readReg r)).advancePc) ∨
       (i = .done ∧ t = s.halt.advancePc) ∨
       (∃ a b d, i = .div a b d ∧ s.readReg b = 0#64 ∧ t = s.raiseFault .divisionByZero 0#4))) := by
  rcases step_running_cases (running_of_step h) with ⟨h1, h2⟩ | ⟨b0, b1, op, h1, h2, h3⟩ | ⟨b0, b1, i, h1, h2, h3⟩
  · rw [h2] at h
    cases h
    exact .inl ⟨h1, rfl⟩
  · rw [h3] at h
    cases h
    exact .inr (.inl ⟨b0, b1, op, h1, h2, rfl⟩)
  · rw [h3] at h
    refine .inr (.inr ⟨b0, b1, i, h1, h2, h, ?_⟩)
    cases i with
    | done => cases h; exact .inr (.inr (.inl ⟨rfl, rfl⟩))
    | loadi d k => cases h; exact .inl ⟨_, _, by simp, by simp, rfl⟩
    | add a b d => cases h; exact .inl ⟨_, _, by simp, by simp, rfl⟩
    | sub a b d => cases h; exact .inl ⟨_, _, by simp, by simp, rfl⟩
    | mul a b d => cases h; exact .inl ⟨_, _, by simp, by simp, rfl⟩
    | movres r => cases h; exact .inr (.inl ⟨r, rfl, rfl⟩)
    | div a b d =>
      by_cases hz : s.readReg b = 0#64
      · simp only [exec, execDiv, isZero, hz, beq_self_eq_true, if_true] at h
        cases h
        exact .inr (.inr (.inr ⟨a, b, d, rfl, hz, rfl⟩))
      · simp only [exec, execDiv, isZero, beq_iff_eq, hz, if_false] at h
        cases h
        exact .inl ⟨_, _, by simp, fun _ _ _ e => by cases e; exact hz, rfl⟩

end Sys2Proof.Machine
end

