-- ==== Sys2Proof/Laws/Run.lean ====
section
/-! SUPPORT. The run loop: it stays where there is no step, it composes, and one more step of a run is one step. -/

namespace Sys2Proof.Machine

theorem runLoop_of_not_running {s : State} (h : s.runState ≠ .running) : ∀ k, runLoop k s = s
  | 0 => rfl
  | k + 1 => by
    unfold runLoop
    cases e : step s with
    | next t => exact absurd (running_of_step e) h
    | fault r => rfl
    | refused r => rfl

theorem runLoop_succ_of_step {s t : State} (h : step s = .next t) (k : Nat) : runLoop (k + 1) s = runLoop k t := by
  simp [runLoop, h]

theorem runLoop_add (k m : Nat) (s : State) : runLoop (k + m) s = runLoop m (runLoop k s) := by
  induction k generalizing s with
  | zero => simp [runLoop]
  | succ k ih =>
    by_cases hr : s.runState = .running
    · obtain ⟨t, h⟩ := step_answers_next hr
      rw [Nat.succ_add, runLoop_succ_of_step h, runLoop_succ_of_step h, ih]
    · rw [runLoop_of_not_running hr, runLoop_of_not_running hr, runLoop_of_not_running hr]

theorem stateAfter_succ_of_step {bytes : List Byte} {s t : State} {k : Nat} (h : step (stateAfter bytes k s) = .next t) :
    stateAfter bytes (k + 1) s = t := by
  simp only [stateAfter] at h ⊢
  rw [runLoop_add k 1, runLoop_succ_of_step h]
  rfl

theorem stateAfter_succ_of_not_running {bytes : List Byte} {s : State} {k : Nat}
    (h : (stateAfter bytes k s).runState ≠ .running) : stateAfter bytes (k + 1) s = stateAfter bytes k s := by
  simp only [stateAfter] at h ⊢
  rw [runLoop_add k 1, runLoop_of_not_running h]

end Sys2Proof.Machine
end

