-- ==== Sys2Proof/Tests/Slice0.lean ====
section
/-! SUPPORT. Small tests: the range check's smoke tests, words written out from the spec's encodings, single steps with the
results of 95_test_vectors.md, and a witness for the hypotheses of every statement that has some. -/

namespace Sys2Proof.Tests

open Sys2Proof Sys2Proof.Machine

/-! The range check (R104, V10): one ill-formed statement for each operand of each form. -/

theorem test_loadi_dest_out_of_range : (Stmt.loadi 16 0).wellFormed = false := by decide
theorem test_loadi_imm_out_of_range : (Stmt.loadi 0 256).wellFormed = false := by decide
theorem test_add_out_of_range : (Stmt.add 16 0 0).wellFormed = false ∧ (Stmt.add 0 16 0).wellFormed = false ∧
    (Stmt.add 0 0 16).wellFormed = false := by decide
theorem test_sub_out_of_range : (Stmt.sub 16 0 0).wellFormed = false ∧ (Stmt.sub 0 16 0).wellFormed = false ∧
    (Stmt.sub 0 0 16).wellFormed = false := by decide
theorem test_div_out_of_range : (Stmt.div 16 0 0).wellFormed = false ∧ (Stmt.div 0 16 0).wellFormed = false ∧
    (Stmt.div 0 0 16).wellFormed = false := by decide
theorem test_mul_out_of_range : (Stmt.mul 16 0 0).wellFormed = false ∧ (Stmt.mul 0 16 0).wellFormed = false ∧
    (Stmt.mul 0 0 16).wellFormed = false := by decide
theorem test_movres_out_of_range : (Stmt.movres 16).wellFormed = false := by decide
theorem test_boundary_in_range : (Stmt.loadi 15 255).wellFormed = true ∧ (Stmt.add 15 15 15).wellFormed = true ∧
    Stmt.done.wellFormed = true ∧ (Stmt.movres 15).wellFormed = true := by decide

/-! Decoding: words written out from R81 and R87 to R93 (V1). -/

theorem test_decode_done : decode 0x0F#8 0xFF#8 = .instr .done := by decide
theorem test_decode_loadi : decode 0x1F#8 0xFE#8 = .instr (.loadi 15#4 254#8) := by decide
theorem test_decode_add : decode 0x2A#8 0xBC#8 = .instr (.add 10#4 11#4 12#4) := by decide
theorem test_decode_sub : decode 0x35#8 0x06#8 = .instr (.sub 5#4 0#4 6#4) := by decide
theorem test_decode_div : decode 0x44#8 0x15#8 = .instr (.div 4#4 1#4 5#4) := by decide
theorem test_decode_mul : decode 0x59#8 0x87#8 = .instr (.mul 9#4 8#4 7#4) := by decide
theorem test_decode_movres : decode 0x63#8 0xAB#8 = .instr (.movres 3#4) := by decide
theorem test_decode_reserved : decode 0x70#8 0x00#8 = .reservedOpcode 7#4 ∧ decode 0xFF#8 0xFF#8 = .reservedOpcode 15#4 := by
  decide
theorem test_decodeTableWord : decodeTableWord 16 0x2ABC = some (.add 10#4 11#4 12#4) ∧ decodeTableWord 16 0x8A12 = none := by
  decide
/-- V10. -/
theorem test_assemble : assemble [.loadi 0 3, .sub 5 0 6, .movres 6, .done] =
      .ok [0x10#8, 0x03#8, 0x35#8, 0x06#8, 0x66#8, 0x00#8, 0x00#8, 0x00#8] ∧
    assemble [.loadi 0 3, .add 0 16 0] = .error .operandOutOfRange := by decide

/-! Single steps. -/

/-- A state right after reset but for some registers and one instruction placed at `pc`. -/
def start (regs : List (RegIdx × Word)) (w : Nat) : State :=
  (regs.foldl (fun s p => s.writeReg p.1 p.2) State.reset).withFetchWord 16 w

/-- What one step leaves of a state, seen through `f`. -/
def after {α : Type} (f : State → α) (s : State) : Option α :=
  match step s with
  | .next t => some (f t)
  | .fault _ => none
  | .refused _ => none

/-- V2: `17 80` leaves 128, and the upper bits are cleared. -/
theorem test_loadi_zero_extends : after (fun t => (t.readReg 7#4, t.pc)) (start [(7#4, 0xFFFFFFFFFFFFFFFF#64)] 0x1780) =
    some (0x80#64, 2) := by decide
/-- V3: MAX + 1 wraps to 0. -/
theorem test_add_wraps : after (fun t => t.readReg 2#4) (start [(0#4, 0xFFFFFFFFFFFFFFFF#64), (1#4, 1#64), (2#4, 5#64)] 0x2012) =
    some 0#64 := by decide
/-- V3: `ADD 1,1,1` with 7 gives 14. -/
theorem test_add_same_register : after (fun t => t.readReg 1#4) (start [(1#4, 7#64)] 0x2111) = some 14#64 := by decide
/-- V4: `SUB 1,0,2` with 9 and 3. -/
theorem test_sub_order_and_wrap : after (fun t => t.readReg 2#4) (start [(0#4, 9#64), (1#4, 3#64)] 0x3102) =
    some 0xFFFFFFFFFFFFFFFA#64 := by decide
/-- V5: unsigned; a signed divide would give 2. -/
theorem test_div_unsigned : after (fun t => t.readReg 2#4)
    (start [(0#4, 0xFFFFFFFFFFFFFFFE#64), (1#4, 0xFFFFFFFFFFFFFFFF#64), (2#4, 9#64)] 0x4012) = some 0#64 := by decide
/-- R202: `DIV 4,1,5` with a zero divisor. -/
theorem test_div_by_zero : after (fun t => (t.runState, t.fault, t.readReg 5#4, t.pc)) (start [(4#4, 48#64), (5#4, 7#64)] 0x4415) =
    some (.failed, { kind := .divisionByZero, code := 0#4, position := 0 }, 7#64, 0) := by decide
/-- V6: MAX * MAX is 1. -/
theorem test_mul_wraps : after (fun t => t.readReg 2#4)
    (start [(0#4, 0xFFFFFFFFFFFFFFFF#64), (1#4, 0xFFFFFFFFFFFFFFFF#64)] 0x5012) = some 1#64 := by decide
/-- V7: `63 AB` is `MOVRES 3`. -/
theorem test_movres : after (fun t => (t.result, t.runState, t.pc)) (start [(3#4, 0xFFFFFFFFFFFFFFFF#64)] 0x63AB) =
    some (0xFFFFFFFFFFFFFFFF#64, .running, 2) := by decide
/-- V7: `0F FF` is a DONE. -/
theorem test_done : after (fun t => (t.runState, t.pc, t.result)) (start [] 0x0FFF) = some (.halted, 2, 0#64) := by decide
/-- V1, S3: `8A 12` fails with code 8. -/
theorem test_unknown_opcode : after (fun t => (t.runState, t.fault, t.pc)) (start [] 0x8A12) =
    some (.failed, { kind := .unknownOpcode, code := 8#4, position := 0 }, 0) := by decide
/-- V8: the one-byte program `70` fails in the fetch, not in the dispatch. -/
theorem test_fetch_check_comes_first : after (fun t => (t.fault.kind, t.fault.position)) (beginRun [0x70#8] State.reset) =
    some (.unexpectedEndOfProgram, 0) := by decide
/-- R131: the worked example, at offset 4 of a program. -/
theorem test_worked_example : after (fun t => (t.readReg 2#4, t.pc, t.runState))
    { (beginRun [0x10#8, 0x03#8, 0x11#8, 0x05#8, 0x20#8, 0x12#8] State.reset).writeReg 0#4 3#64 |>.writeReg 1#4 5#64 with
      pc := 4 } = some (8#64, 6, .running) := by decide
/-- R33, R207. -/
theorem test_codes : [runStateCode .idle, runStateCode .running, runStateCode .halted, runStateCode .failed] = [0#2, 1#2, 2#2, 3#2] ∧
    [faultKindCode .none, faultKindCode .unknownOpcode, faultKindCode .divisionByZero,
      faultKindCode .unexpectedEndOfProgram] = [0#2, 1#2, 2#2, 3#2] := by decide
/-- R22: `x[0]` is an ordinary register. -/
theorem test_register_zero_is_ordinary : (State.reset.writeReg 0#4 3#64).readReg 0#4 = 3#64 := by decide
/-- The canonical store: writing the unlisted byte removes the cell. -/
theorem test_memory_write_removes : Memory.write (Memory.ofBytes 0 [0x10#8, 0x00#8, 0x2A#8]) 2 0x00#8 = [(0, 0x10#8)] := by decide
theorem test_memory_not_canonical : Memory.wf [(1, 0x10#8), (1, 0x20#8)] = false ∧ Memory.wf [(1, 0x00#8)] = false ∧
    Memory.wf [(2, 0x10#8), (1, 0x20#8)] = false := by decide
/-- The block view of the same step. -/
theorem test_datapath : after id (start [(0#4, 9#64), (1#4, 3#64)] 0x3102) =
    some (datapathStep (start [(0#4, 9#64), (1#4, 3#64)] 0x3102)) := by decide

/-! Witnesses: the hypotheses of the statements can be met, each clause at a boundary of its range. -/

theorem witness_AssembledStatements : (Stmt.loadi 15 255).wellFormed = true ∧ (Stmt.loadi 16 255).wellFormed = false ∧
    (Stmt.loadi 15 256).wellFormed = false := by decide
theorem witness_EncodeOfDecode : decode 0x0F#8 0xFF#8 = .instr .done ∧ canonicalPair 0x0F#8 0xFF#8 = false ∧
    decode 0x6F#8 0x00#8 = .instr (.movres 15#4) ∧ canonicalPair 0x6F#8 0x00#8 = true := by decide
theorem witness_OpcodeTable : decode 0x6F#8 0xFF#8 = .instr (.movres 15#4) ∧ decode 0x70#8 0x00#8 = .reservedOpcode 7#4 ∧
    (⟨"DONE", 0x0000#16, 0xF000#16⟩ : OpcodeRow) ∈ opcodeTable ∧
    (⟨"DONE", 0x0000#16, 0xF000#16⟩ : OpcodeRow).matches 0x0FFF#16 = true := by decide
theorem witness_StepRunsTheDecodedInstruction : (start [] 0x2ABC).runState = .running ∧
    (start [] 0x2ABC).progByte (start [] 0x2ABC).pc = some 0x2A#8 ∧
    (start [] 0x2ABC).progByte ((start [] 0x2ABC).pc + 1) = some 0xBC#8 ∧
    decode 0x2A#8 0xBC#8 = .instr (.add 10#4 11#4 12#4) := by decide
theorem witness_StepExists : (start [] 0).runState = .running ∧ State.reset.runState = .idle ∧
    (start [] 0).halt.runState = .halted ∧ ((start [] 0).raiseFault .divisionByZero 0#4).runState = .failed := by decide
theorem witness_DivWritesTheFloorQuotient : (State.reset.writeReg 1#4 1#64).readReg 1#4 ≠ 0#64 := by decide
theorem witness_DivByZero : State.reset.readReg 1#4 = 0#64 := by decide
theorem witness_FetchPastTheEnd : (beginRun [0x70#8] State.reset).runState = .running ∧
    (beginRun [0x70#8] State.reset).progLen - (beginRun [0x70#8] State.reset).pc = 1 ∧
    (beginRun [] State.reset).progLen - (beginRun [] State.reset).pc = 0 ∧
    (beginRun [0x00#8, 0x00#8] State.reset).progLen - (beginRun [0x00#8, 0x00#8] State.reset).pc = 2 := by decide
theorem witness_ReservedOpcodes : (start [] 0x7000).runState = .running ∧
    (start [] 0x7000).progByte (start [] 0x7000).pc = some 0x70#8 ∧
    (start [] 0x7000).progByte ((start [] 0x7000).pc + 1) = some 0x00#8 ∧
    7 ≤ ((0x70#8).extractLsb' 4 4).toNat ∧ 7 ≤ ((0xFF#8).extractLsb' 4 4).toNat ∧
    (start [] 0x6F00).progByte (start [] 0x6F00).pc = some 0x6F#8 ∧ ((0x6F#8).extractLsb' 4 4).toNat ≤ 6 := by decide
theorem witness_EveryFault : ∃ t, step (start [] 0x4415) = .next t ∧ t.runState = .failed := ⟨_, rfl, rfl⟩
theorem witness_WriteBack : (start [] 0x2012).runState = .running ∧ (start [] 0x2012).fetch = some (0x20#8, 0x12#8) ∧
    (beginRun [] State.reset).runState = .running ∧ (beginRun [] State.reset).fetch = none := by decide
/-- For the statements over every step (PcAdvances, StepLeavesRunning, NoStepWrites): a step that stays in Running, one that
halts, one that fails. -/
theorem witness_steps : (∃ t, step (start [] 0x2012) = .next t ∧ t.runState = .running) ∧
    (∃ t, step (start [] 0x0000) = .next t ∧ t.runState = .halted) ∧
    (∃ t, step (start [] 0x7000) = .next t ∧ t.runState = .failed) := ⟨⟨_, rfl, rfl⟩, ⟨_, rfl, rfl⟩, ⟨_, rfl, rfl⟩⟩
/-- For the invariants: a run in progress that has the shape, with a step. -/
theorem witness_invariants : (beginRun [0x11#8, 0x05#8] State.reset).Inv ∧ (beginRun [0x11#8, 0x05#8] State.reset).EndedForCause ∧
    ∃ t, step (beginRun [0x11#8, 0x05#8] State.reset) = .next t :=
  ⟨⟨by decide, by decide, by decide, by decide, by decide, by decide, by decide, by decide, by decide⟩,
    ⟨by decide, by decide, by decide, by decide⟩, _, rfl⟩
theorem witness_HostMovesKeepTheInvariant : State.reset.Inv ∧ ∃ t, hostReset State.reset = .next t :=
  ⟨⟨by decide, by decide, by decide, by decide, by decide, by decide, by decide, by decide, by decide⟩, _, rfl⟩
theorem witness_HostReset : State.reset.runState ≠ .running ∧ (start [] 0).halt.runState ≠ .running ∧
    ((start [] 0).raiseFault .divisionByZero 0#4).runState ≠ .running := by decide
theorem witness_HostHasNoMove : (start [] 0).runState = .running ∧ State.reset.runState ≠ .running := by decide
theorem witness_UnreachedBytes : 2 * 1 ≤ [0x00#8, 0x00#8, 0x70#8].length ∧ 2 * 1 ≤ [0x00#8, 0x00#8].length ∧
    [0x00#8, 0x00#8, 0x70#8].take (2 * 1) = [0x00#8, 0x00#8].take (2 * 1) := by decide
theorem witness_StepNumberK : (stateAfter [0x11#8, 0x05#8] 0 State.reset).runState = .running ∧
    (stateAfter [0x11#8, 0x05#8] 1 State.reset).runState = .running := by decide
theorem witness_EveryRunEnds : ([] : List Byte).length / 2 + 1 ≤ 1 ∧ [0x00#8].length / 2 + 1 ≤ 1 := by decide
theorem witness_HostRun : State.reset.runState ≠ .running ∧ ([] : List Byte).length ≤ Config.maxProgramLength :=
  ⟨by decide, Nat.zero_le _⟩
theorem witness_UnwrittenRegisters : ∀ j, j < 1 → ∀ f, fieldsAt (stateAfter [0x11#8, 0x05#8] j State.reset) = some f →
    goesOn (stateAfter [0x11#8, 0x05#8] j State.reset) f → destOf f ≠ some 2#4 := by
  intro j hj f hf _
  obtain rfl : j = 0 := by omega
  have h : fieldsAt (stateAfter [0x11#8, 0x05#8] 0 State.reset) = some (splitFields 0x11#8 0x05#8) := by decide
  rw [h] at hf
  cases hf
  decide
theorem witness_ResultIsTheLastMovres : fieldsAt (stateAfter [0x66#8, 0x00#8] 0 State.reset) = some (splitFields 0x66#8 0x00#8) ∧
    (splitFields 0x66#8 0x00#8).op = 6#4 ∧
    (∀ m, 0 < m → m < 1 → ∀ g, fieldsAt (stateAfter [0x66#8, 0x00#8] m State.reset) = some g → g.op ≠ 6#4) :=
  ⟨by decide, by decide, fun m h h' => absurd h' (by omega)⟩
theorem witness_NoMovres : ∀ j, j < 1 → ∀ f, fieldsAt (stateAfter [0x11#8, 0x05#8] j State.reset) = some f → f.op ≠ 6#4 := by
  intro j hj f hf
  obtain rfl : j = 0 := by omega
  have h : fieldsAt (stateAfter [0x11#8, 0x05#8] 0 State.reset) = some (splitFields 0x11#8 0x05#8) := by decide
  rw [h] at hf
  cases hf
  decide
theorem witness_OnlyLoadi : ∀ j, j < 1 → ∀ f, fieldsAt (stateAfter [0x11#8, 0x00#8] j State.reset) = some f → f.op = 1#4 →
    f.imm8 = 0#8 := by
  intro j hj f hf _
  obtain rfl : j = 0 := by omega
  have h : fieldsAt (stateAfter [0x11#8, 0x00#8] 0 State.reset) = some (splitFields 0x11#8 0x00#8) := by decide
  rw [h] at hf
  cases hf
  decide
theorem witness_ArithmeticLaws : (2#4 : RegIdx) ≠ 1#4 ∧
    (State.reset.writeReg 1#4 (BitVec.ofNat 64 (2 ^ 63))).readReg 1#4 = BitVec.ofNat 64 (2 ^ 63) ∧
    (State.reset.writeReg 1#4 (BitVec.ofNat 64 (2 ^ 0))).readReg 1#4 = BitVec.ofNat 64 (2 ^ 0) := by decide
theorem witness_Datapath : (start [] 0x5012).runState = .running := by decide
theorem witness_PlacedWord : Memory.wf State.reset.prog = true ∧ decodeTableWord 16 0x6FFF = some (.movres 15#4) := by decide

end Sys2Proof.Tests
end

/-! PROOF. Which register a step writes: none, or the destination named by the completed instruction it fetched. From that,
a register that no completed instruction of a run has named keeps its reset value (R24). -/

namespace Sys2Proof.Machine

/-! The start of a run. -/

@[simp] theorem stateAfter_zero (bytes : List Byte) (s : State) : stateAfter bytes 0 s = beginRun bytes s := rfl

@[simp] theorem readReg_beginRun (bytes : List Byte) (s : State) (r : RegIdx) : (beginRun bytes s).readReg r = 0#64 :=
  readReg_resetCore s r

/-! The two outcomes of DIV. -/

theorem exec_div_of_zero {a b d : RegIdx} {s : State} (hz : s.readReg b = 0#64) :
    exec (.div a b d) s = .next (s.raiseFault .divisionByZero 0#4) := by
  simp [exec, execDiv, isZero, hz]

theorem exec_div_of_ne_zero {a b d : RegIdx} {s : State} (hz : s.readReg b ≠ 0#64) :
    exec (.div a b d) s = .next (s.writeReg d (quotOf (s.readReg a) (s.readReg b))).advancePc := by
  simp [exec, execDiv, isZero, hz]

/-! The fields at `pc`, and what the instruction with these fields does to the register file. -/

theorem fieldsAt_of_fetch {s : State} {b0 b1 : Byte} (hr : s.runState = .running) (hf : s.fetch = some (b0, b1)) :
    fieldsAt s = some (splitFields b0 b1) := by
  simp [fieldsAt, hr, hf]

/-- An instruction that names a destination goes on, unless it is a DIV with a zero divisor (R130). -/
theorem goesOn_of_destOf {s : State} {f : Fields} {d : RegIdx} (hd : destOf f = some d)
    (hz : f.op.toNat = 4 → s.readReg f.reg1 ≠ 0#64) : goesOn s f := by
  have hop : 1 ≤ f.op.toNat ∧ f.op.toNat ≤ 5 := by
    unfold destOf at hd
    split at hd
    case h_6 => cases hd
    all_goals omega
  exact ⟨hop.1, by omega, hz⟩

/-- The instruction that the fields select leaves the register file alone, or it writes the destination that the fields
name, for DIV only if the divisor is not zero (R125). -/
theorem exec_regs_cases {f : Fields} {i : Instr} {s t : State} (hi : selectInstr f = .instr i) (h : exec i s = .next t) :
    t.regs = s.regs ∨
    ∃ d v, destOf f = some d ∧ (f.op.toNat = 4 → s.readReg f.reg1 ≠ 0#64) ∧ t = (s.writeReg d v).advancePc := by
  rcases selectInstr_cases f with ⟨ho, hs⟩ | ⟨ho, hs⟩ | ⟨ho, hs⟩ | ⟨ho, hs⟩ | ⟨ho, hs⟩ | ⟨ho, hs⟩ | ⟨ho, hs⟩ | ⟨-, hs⟩
  all_goals cases hs.symm.trans hi
  · -- DONE
    cases h; exact .inl rfl
  · -- LOADI
    cases h; exact .inr ⟨f.reg0, _, by simp [destOf, ho], by simp [ho], rfl⟩
  · -- ADD
    cases h; exact .inr ⟨f.reg2, _, by simp [destOf, ho], by simp [ho], rfl⟩
  · -- SUB
    cases h; exact .inr ⟨f.reg2, _, by simp [destOf, ho], by simp [ho], rfl⟩
  · -- DIV
    by_cases hz : s.readReg f.reg1 = 0#64
    · cases (exec_div_of_zero hz).symm.trans h; exact .inl rfl
    · cases (exec_div_of_ne_zero hz).symm.trans h
      exact .inr ⟨f.reg2, _, by simp [destOf, ho], fun _ => hz, rfl⟩
  · -- MUL
    cases h; exact .inr ⟨f.reg2, _, by simp [destOf, ho], by simp [ho], rfl⟩
  · -- MOVRES
    cases h; exact .inl rfl

/-- A step leaves the register file alone, or it completes an instruction and writes the destination that this
instruction names. -/
theorem step_regs_cases {s t : State} (h : step s = .next t) :
    t.regs = s.regs ∨
    ∃ f d v, fieldsAt s = some f ∧ goesOn s f ∧ destOf f = some d ∧ t = (s.writeReg d v).advancePc := by
  have hr := running_of_step h
  rcases step_running_cases hr with ⟨-, hs⟩ | ⟨_, _, _, -, -, hs⟩ | ⟨b0, b1, i, hf, hi, hs⟩
  · cases hs.symm.trans h; exact .inl rfl
  · cases hs.symm.trans h; exact .inl rfl
  · refine (exec_regs_cases hi (hs.symm.trans h)).imp_right ?_
    rintro ⟨d, v, hd, hz, ht⟩
    exact ⟨_, d, v, fieldsAt_of_fetch hr hf, goesOn_of_destOf hd hz, hd, ht⟩

/-- A step keeps every register that is not the destination of an instruction it completes. -/
theorem step_readReg_of_not_dest {s t : State} {r : RegIdx} (h : step s = .next t)
    (hnot : ∀ f, fieldsAt s = some f → goesOn s f → destOf f ≠ some r) : t.readReg r = s.readReg r := by
  rcases step_regs_cases h with hregs | ⟨f, d, v, hf, hgo, hd, rfl⟩
  · exact readReg_of_regs_eq hregs r
  · have hrd : r ≠ d := fun e => hnot f hf hgo (e ▸ hd)
    rw [readReg_advancePc, readReg_writeReg_other s v hrd]

/-- The same for step number `k` of a run, which need not take place. -/
theorem stateAfter_succ_readReg_of_not_dest {bytes : List Byte} {s : State} {k : Nat} {r : RegIdx}
    (hnot : ∀ f, fieldsAt (stateAfter bytes k s) = some f → goesOn (stateAfter bytes k s) f → destOf f ≠ some r) :
    (stateAfter bytes (k + 1) s).readReg r = (stateAfter bytes k s).readReg r := by
  by_cases hr : (stateAfter bytes k s).runState = .running
  · obtain ⟨t, ht⟩ := step_answers_next hr
    rw [stateAfter_succ_of_step ht, step_readReg_of_not_dest ht hnot]
  · rw [stateAfter_succ_of_not_running hr]

/-- Settles O38, by induction on the number of steps: the run starts with every register 0, and each step keeps a register
that it does not name as destination. -/
theorem unwrittenRegistersReadZero : Obligations.UnwrittenRegistersReadZero := by
  unfold Obligations.UnwrittenRegistersReadZero
  intro bytes s k r hnot
  induction k with
  | zero => simp
  | succ k ih =>
    rw [stateAfter_succ_readReg_of_not_dest (hnot k (Nat.lt_succ_self k))]
    exact ih fun j hj => hnot j (Nat.lt_succ_of_lt hj)

end Sys2Proof.Machine

/-! PROOF. The reserved space (R94): the operation code alone decides whether two bytes are an instruction, and what a step
in Running makes of two fetched bytes follows their decoding. -/

namespace Sys2Proof

/-- Operation codes 7 to 15 select no instruction, whatever the other fields are (R94). -/
theorem selectInstr_of_seven_le {f : Fields} (h : 7 ≤ f.op.toNat) : selectInstr f = .reservedOpcode f.op := by
  rcases selectInstr_cases f with ⟨ho, -⟩ | ⟨ho, -⟩ | ⟨ho, -⟩ | ⟨ho, -⟩ | ⟨ho, -⟩ | ⟨ho, -⟩ | ⟨ho, -⟩ | ⟨-, hs⟩
  case inr.inr.inr.inr.inr.inr.inr => exact hs
  all_goals simp [ho] at h

/-- Operation codes 0 to 6 always select an instruction (R82, R86). -/
theorem selectInstr_of_le_six {f : Fields} (h : f.op.toNat ≤ 6) : ∃ i, selectInstr f = .instr i := by
  rcases selectInstr_cases f with ⟨-, hs⟩ | ⟨-, hs⟩ | ⟨-, hs⟩ | ⟨-, hs⟩ | ⟨-, hs⟩ | ⟨-, hs⟩ | ⟨-, hs⟩ | ⟨h', -⟩
  case inr.inr.inr.inr.inr.inr.inr => omega
  all_goals exact ⟨_, hs⟩

theorem decode_of_reserved {b0 : Byte} (b1 : Byte) (h : 7 ≤ (b0.extractLsb' 4 4).toNat) :
    decode b0 b1 = .reservedOpcode (b0.extractLsb' 4 4) :=
  selectInstr_of_seven_le (f := splitFields b0 b1) h

theorem decode_of_not_reserved {b0 : Byte} (b1 : Byte) (h : (b0.extractLsb' 4 4).toNat ≤ 6) :
    ∃ i, decode b0 b1 = .instr i :=
  selectInstr_of_le_six (f := splitFields b0 b1) h

end Sys2Proof

namespace Sys2Proof.Machine

theorem step_of_fetch_reserved {s : State} {b0 b1 : Byte} {op : Nibble} (hr : s.runState = .running)
    (hf : s.fetch = some (b0, b1)) (hd : decode b0 b1 = .reservedOpcode op) :
    step s = .next (s.raiseFault .unknownOpcode op) := by
  simp [step, stepFront, hr, hf, hd]

theorem step_of_fetch_instr {s : State} {b0 b1 : Byte} {i : Instr} (hr : s.runState = .running)
    (hf : s.fetch = some (b0, b1)) (hd : decode b0 b1 = .instr i) : step s = exec i s := by
  simp [step, stepFront, hr, hf, hd]

/-- Settles O18: the two bytes at `pc` are what the step fetches, and their operation code decides how they decode. -/
theorem reservedOpcodesAlwaysFault : Obligations.ReservedOpcodesAlwaysFault := by
  unfold Obligations.ReservedOpcodesAlwaysFault
  intro s b0 b1 hr h0 h1
  have hf : s.fetch = some (b0, b1) := (fetch_eq_some_iff s b0 b1).mpr ⟨h0, h1⟩
  constructor
  · intro hop
    exact ⟨_, step_of_fetch_reserved hr hf (decode_of_reserved b1 hop), rfl, rfl⟩
  · intro hop
    obtain ⟨i, hd⟩ := decode_of_not_reserved b1 hop
    exact ⟨i, hd, step_of_fetch_instr hr hf hd⟩

end Sys2Proof.Machine

/-! PROOF. The fetch and the decoder's fields (R121, R122), what a step writes back by the operation code that it fetches
(R125), and the start of a run, which forgets the state before it (R129). -/

namespace Sys2Proof

/-! The nibbles of a byte as numbers. -/

theorem toNat_highNibble (b : Byte) : (b.extractLsb' 4 4).toNat = b.toNat / 16 := by
  have hb : b.toNat < 256 := b.isLt
  rw [BitVec.extractLsb'_toNat, Nat.shiftRight_eq_div_pow]
  omega

theorem toNat_lowNibble (b : Byte) : (b.extractLsb' 0 4).toNat = b.toNat % 16 := by
  rw [BitVec.extractLsb'_toNat, Nat.shiftRight_zero]

/-- Settles O2: each field is a nibble of one of the two bytes, or the second byte itself. -/
theorem decoderGivesTheFiveFields : Obligations.DecoderGivesTheFiveFields := by
  unfold Obligations.DecoderGivesTheFiveFields
  intro b0 b1
  exact ⟨toNat_highNibble b0, toNat_lowNibble b0, toNat_highNibble b1, toNat_lowNibble b1, splitFields_imm8 b0 b1⟩

end Sys2Proof

namespace Sys2Proof.Machine

/-! The fetch and its fault. -/

theorem step_of_fetch_none {s : State} (hr : s.runState = .running) (hf : s.fetch = none) :
    step s = .next (s.raiseFault .unexpectedEndOfProgram 0#4) := by
  simp [step, stepFront, hr, hf]

theorem fetch_eq_some_of_two_le {s : State} (h : 2 ≤ s.progLen - s.pc) : ∃ b0 b1, s.fetch = some (b0, b1) := by
  cases hf : s.fetch with
  | none => exact absurd ((fetch_eq_none_iff s).mp hf) (Nat.not_lt.mpr h)
  | some p => exact ⟨p.1, p.2, rfl⟩

/-- Settles O17: too few bytes left is exactly when the fetch gives none, and the step that then raises the fault changes
the run state and the fault record only. -/
theorem fetchPastTheEndTakesTheFaultFirst : Obligations.FetchPastTheEndTakesTheFaultFirst := by
  unfold Obligations.FetchPastTheEndTakesTheFaultFirst
  intro s hr
  constructor
  · intro hshort
    have hf : s.fetch = none := (fetch_eq_none_iff s).mpr hshort
    exact ⟨_, step_of_fetch_none hr hf, rfl, rfl, rfl, readReg_raiseFault s _ _, rfl, rfl, fun _ => rfl⟩
  · intro hlong
    obtain ⟨b0, b1, hf⟩ := fetch_eq_some_of_two_le hlong
    exact ⟨b0, b1, hf, (fetch_eq_some_iff s b0 b1).mp hf⟩

/-! The start of a run. -/

/-- The start of a run keeps nothing of the state before it (R128 (1) and (2)). -/
theorem beginRun_eq_beginRun (bytes : List Byte) (s s' : State) : beginRun bytes s = beginRun bytes s' := rfl

theorem hostRun_of_not_running {s : State} (bytes : List Byte) (h : s.runState ≠ .running) :
    hostRun bytes s = if Config.maxProgramLength < bytes.length then .refused .programTooLong
      else .next (runLoop (stepBound bytes) (beginRun bytes s)) :=
  if_neg h

/-- Settles O32: a run is the loop from its start, and the start is the same from every state. -/
theorem runDependsOnTheBytesAlone : Obligations.RunDependsOnTheBytesAlone := by
  unfold Obligations.RunDependsOnTheBytesAlone
  intro bytes s s'
  have hb : beginRun bytes s = beginRun bytes s' := beginRun_eq_beginRun bytes s s'
  constructor
  · intro k
    exact congrArg (runLoop k) hb
  · intro hs hs'
    rw [hostRun_of_not_running bytes hs, hostRun_of_not_running bytes hs', hb]

/-! The write-back. -/

/-- LOADI's immediate as the number of its byte (R84). -/
theorem zext64_eq_ofNat (k : Byte) : zext64 k = BitVec.ofNat 64 k.toNat :=
  (BitVec.ofNat_toNat 64 k).symm

/-- Settles O21, by the operation code: it selects the instruction that the step executes, and with it the one register
written, if any; a reserved code and a DIV by zero take a fault, which writes nothing. -/
theorem writeBackIsSelectedByTheOpcode : Obligations.WriteBackIsSelectedByTheOpcode := by
  unfold Obligations.WriteBackIsSelectedByTheOpcode
  intro s hr
  refine ⟨fun b0 b1 hf => ?_, fun hf => ⟨_, step_of_fetch_none hr hf, readReg_raiseFault s _ _, rfl⟩⟩
  have hrun {i : Instr} (hs : selectInstr (splitFields b0 b1) = .instr i) : step s = exec i s :=
    step_of_fetch_instr hr hf hs
  rcases selectInstr_cases (splitFields b0 b1) with
    ⟨ho, hs⟩ | ⟨ho, hs⟩ | ⟨ho, hs⟩ | ⟨ho, hs⟩ | ⟨ho, hs⟩ | ⟨ho, hs⟩ | ⟨ho, hs⟩ | ⟨ho, hs⟩
  · -- DONE
    exact ⟨_, hrun hs, by simp [ho], by simp [ho]⟩
  · -- LOADI
    exact ⟨_, hrun hs, by simp [ho, readReg_writeReg, zext64_eq_ofNat], by simp [ho]⟩
  · -- ADD
    exact ⟨_, hrun hs, by simp [ho, readReg_writeReg, sumOf], by simp [ho]⟩
  · -- SUB
    exact ⟨_, hrun hs, by simp [ho, readReg_writeReg, diffOf], by simp [ho]⟩
  · -- DIV
    by_cases hz : s.readReg (splitFields b0 b1).reg1 = 0#64
    · exact ⟨_, (hrun hs).trans (exec_div_of_zero hz), by simp [ho, hz], by simp [ho]⟩
    · exact ⟨_, (hrun hs).trans (exec_div_of_ne_zero hz), by simp [ho, hz, readReg_writeReg, quotOf], by simp [ho]⟩
  · -- MUL
    exact ⟨_, hrun hs, by simp [ho, readReg_writeReg, prodOf], by simp [ho]⟩
  · -- MOVRES
    exact ⟨_, hrun hs, by simp [ho], by simp [ho]⟩
  · -- a reserved code: no alternative of the write-back and not MOVRES
    have hmovres : (splitFields b0 b1).op ≠ 6#4 := fun e => by simp [e] at ho
    refine ⟨_, step_of_fetch_reserved hr hf hs, fun r => ?_, by simp [hmovres]⟩
    rw [readReg_raiseFault]
    split
    case h_6 => rfl
    all_goals omega

end Sys2Proof.Machine

/-! PROOF. LOADI (R140): a byte as the sum of its nibbles, the frame of a register write that goes on, and the round trip of
LOADI's two bytes. -/

namespace Sys2Proof

/-- A byte laid out as two nibbles is 16 times the high one plus the low one (R10). -/
theorem joinNibbles_eq_add : ∀ hi lo : Nibble, joinNibbles hi lo = 16#8 * hi.setWidth 8 + lo.setWidth 8 := by decide

theorem joinNibbles_one (d : RegIdx) : joinNibbles 1#4 d = 0x10#8 + d.setWidth 8 :=
  joinNibbles_eq_add 1#4 d

theorem encode_loadi (d : RegIdx) (k : Byte) : encode (.loadi d k) = (0x10#8 + d.setWidth 8, k) :=
  congrArg (·, k) (joinNibbles_one d)

/-- Operation code 1 with register `d` and second byte `k` is LOADI of `k` to `d` (R88). -/
theorem decode_joinNibbles_one (d : RegIdx) (k : Byte) : decode (joinNibbles 1#4 d) k = .instr (.loadi d k) := by
  simp [decode, selectInstr, splitFields_op_join, splitFields_reg0_join]

end Sys2Proof

namespace Sys2Proof.Machine

/-- The shape of every completed instruction with a destination: one register written, `pc` advanced, nothing else. -/
theorem writesOnlyReg_writeReg_advancePc (s : State) (d : RegIdx) (v : Word) :
    WritesOnlyReg d v s (s.writeReg d v).advancePc where
  dest := readReg_writeReg_same s d v
  others _ hr := readReg_writeReg_other s v hr
  pc := rfl
  result := rfl
  runState := rfl
  fault := rfl
  program _ := rfl

theorem exec_loadi (d : RegIdx) (k : Byte) (s : State) :
    exec (.loadi d k) s = .next (s.writeReg d (zext64 k)).advancePc := rfl

/-- Settles O9: the bytes are the nibbles 1 and `d` and the byte `k`, and executing LOADI is one register write of the
zero-extended immediate. -/
theorem loadiWritesTheZeroExtendedImmediate : Obligations.LoadiWritesTheZeroExtendedImmediate := by
  unfold Obligations.LoadiWritesTheZeroExtendedImmediate
  intro d k s
  refine ⟨encode_loadi d k, ?_, _, exec_loadi d k s, ?_⟩
  · rw [← joinNibbles_one]
    exact decode_joinNibbles_one d k
  · rw [← zext64_eq_ofNat]
    exact writesOnlyReg_writeReg_advancePc s d (zext64 k)

end Sys2Proof.Machine

/-! PROOF. ADD, SUB and MUL (R146, R147, R149): the two bytes of a three-register instruction and their round trip, the
three results in exact arithmetic, and one register write that goes on. -/

namespace Sys2Proof

/-- A word of four nibbles, each byte as 16 times its high nibble plus its low one (R10, R81). -/
theorem joinNibbles_pair_eq_add (op a b c : Nibble) : (joinNibbles op a, joinNibbles b c) =
    (16#8 * op.setWidth 8 + a.setWidth 8, 16#8 * b.setWidth 8 + c.setWidth 8) :=
  Prod.ext (joinNibbles_eq_add op a) (joinNibbles_eq_add b c)

theorem encode_add (a b c : RegIdx) :
    encode (.add a b c) = (0x20#8 + a.setWidth 8, 16#8 * b.setWidth 8 + c.setWidth 8) :=
  joinNibbles_pair_eq_add 2#4 a b c

theorem encode_sub (a b c : RegIdx) :
    encode (.sub a b c) = (0x30#8 + a.setWidth 8, 16#8 * b.setWidth 8 + c.setWidth 8) :=
  joinNibbles_pair_eq_add 3#4 a b c

theorem encode_mul (a b c : RegIdx) :
    encode (.mul a b c) = (0x50#8 + a.setWidth 8, 16#8 * b.setWidth 8 + c.setWidth 8) :=
  joinNibbles_pair_eq_add 5#4 a b c

/-- The round trip (R105): each instruction's operation code selects its own row, and its operands are read back from the
nibbles that they were joined into. -/
theorem decode_encode (i : Instr) : decode (encode i).1 (encode i).2 = .instr i := by
  cases i with
  | done => rfl
  | loadi d k => exact decode_joinNibbles_one d k
  | movres r => simp [encode, decode, selectInstr, splitFields_op_join, splitFields_reg0_join]
  | add | sub | div | mul =>
    simp [encode, decode, selectInstr, splitFields_op_join, splitFields_reg0_join, splitFields_reg1_join,
      splitFields_reg2_join]

theorem decode_of_encode_eq {i : Instr} {b0 b1 : Byte} (h : encode i = (b0, b1)) : decode b0 b1 = .instr i := by
  simpa [h] using decode_encode i

end Sys2Proof

namespace Sys2Proof.Machine

/-! The results in exact arithmetic. -/

theorem sumOf_eq_ofNat (a b : Word) : sumOf a b = BitVec.ofNat 64 ((a.toNat + b.toNat) % 2 ^ 64) :=
  BitVec.eq_of_toNat_eq (by simp [sumOf])

theorem prodOf_eq_ofNat (a b : Word) : prodOf a b = BitVec.ofNat 64 (a.toNat * b.toNat % 2 ^ 64) :=
  BitVec.eq_of_toNat_eq (by simp [prodOf])

/-- The borrow: the exact difference where there is none, 2^64 more where there is one (R147). -/
theorem diffOf_eq_ofNat (a b : Word) : diffOf a b = BitVec.ofNat 64
    (if b.toNat ≤ a.toNat then a.toNat - b.toNat else a.toNat + 2 ^ 64 - b.toNat) := by
  apply BitVec.eq_of_toNat_eq
  rw [diffOf, BitVec.toNat_sub, BitVec.toNat_ofNat]
  split
  case isTrue hle => -- no borrow
    omega
  case isFalse hlt => -- borrow
    omega

/-! One register write that goes on. -/

theorem exec_add (a b d : RegIdx) (s : State) :
    exec (.add a b d) s = .next (s.writeReg d (sumOf (s.readReg a) (s.readReg b))).advancePc := rfl

theorem exec_sub (a b d : RegIdx) (s : State) :
    exec (.sub a b d) s = .next (s.writeReg d (diffOf (s.readReg a) (s.readReg b))).advancePc := rfl

theorem exec_mul (a b d : RegIdx) (s : State) :
    exec (.mul a b d) s = .next (s.writeReg d (prodOf (s.readReg a) (s.readReg b))).advancePc := rfl

/-- An instruction that writes one register and goes on has the frame of that write, for its value in any form. -/
theorem writesOnlyReg_of_exec {i : Instr} {d : RegIdx} {v w : Word} {s : State}
    (h : exec i s = .next (s.writeReg d v).advancePc) (hv : v = w) :
    ∃ t, exec i s = .next t ∧ WritesOnlyReg d w s t :=
  ⟨_, h, hv ▸ writesOnlyReg_writeReg_advancePc s d v⟩

/-- Settles O10: executing ADD is one register write of the sum. -/
theorem addWritesTheSumModuloTwoToThe64 : Obligations.AddWritesTheSumModuloTwoToThe64 := by
  unfold Obligations.AddWritesTheSumModuloTwoToThe64
  intro s0 s1 d s
  have henc := encode_add s0 s1 d
  exact ⟨henc, decode_of_encode_eq henc, writesOnlyReg_of_exec (exec_add s0 s1 d s) (sumOf_eq_ofNat _ _)⟩

/-- Settles O11: executing SUB is one register write of the difference, with or without a borrow. -/
theorem subWritesTheDifferenceModuloTwoToThe64 : Obligations.SubWritesTheDifferenceModuloTwoToThe64 := by
  unfold Obligations.SubWritesTheDifferenceModuloTwoToThe64
  intro s0 s1 d s
  have henc := encode_sub s0 s1 d
  exact ⟨henc, decode_of_encode_eq henc, writesOnlyReg_of_exec (exec_sub s0 s1 d s) (diffOf_eq_ofNat _ _)⟩

/-- Settles O12: executing MUL is one register write of the product. -/
theorem mulWritesTheLowHalfOfTheProduct : Obligations.MulWritesTheLowHalfOfTheProduct := by
  unfold Obligations.MulWritesTheLowHalfOfTheProduct
  intro s0 s1 d s
  have henc := encode_mul s0 s1 d
  exact ⟨henc, decode_of_encode_eq henc, writesOnlyReg_of_exec (exec_mul s0 s1 d s) (prodOf_eq_ofNat _ _)⟩

end Sys2Proof.Machine

/-! PROOF. `result` along a run (R160, R162): a step that executes a MOVRES sets it to the source register's value, every
other step keeps it, and so it keeps its value over any stretch of a run without a MOVRES. -/

namespace Sys2Proof.Machine

@[simp] theorem result_beginRun (bytes : List Byte) (s : State) : (beginRun bytes s).result = 0#64 := rfl

/-- Where there are fields to execute, two bytes were fetched in Running. -/
theorem fetch_of_fieldsAt {s : State} {f : Fields} (hf : fieldsAt s = some f) :
    s.runState = .running ∧ ∃ b0 b1, s.fetch = some (b0, b1) ∧ splitFields b0 b1 = f := by
  simpa [fieldsAt] using hf

/-- A step with a MOVRES at `pc` moves the source register's value to `result` (R160). -/
theorem step_result_of_movres {s : State} {f : Fields} (hf : fieldsAt s = some f) (hop : f.op = 6#4) :
    ∃ t, step s = .next t ∧ t.result = s.readReg f.reg0 := by
  obtain ⟨hr, b0, b1, hfetch, rfl⟩ := fetch_of_fieldsAt hf
  obtain ⟨t, ht, -, hres⟩ := (writeBackIsSelectedByTheOpcode s hr).1 b0 b1 hfetch
  exact ⟨t, ht, hres.trans (if_pos hop)⟩

/-- A step in Running without a MOVRES at `pc` keeps `result`, a failed fetch and a reserved operation code included. -/
theorem step_result_of_not_movres {s : State} (hr : s.runState = .running)
    (hnot : ∀ f, fieldsAt s = some f → f.op ≠ 6#4) : ∃ t, step s = .next t ∧ t.result = s.result := by
  obtain ⟨hsome, hnone⟩ := writeBackIsSelectedByTheOpcode s hr
  cases hfetch : s.fetch with
  | none =>
    obtain ⟨t, ht, -, hres⟩ := hnone hfetch
    exact ⟨t, ht, hres⟩
  | some p =>
    obtain ⟨t, ht, -, hres⟩ := hsome p.1 p.2 hfetch
    exact ⟨t, ht, hres.trans (if_neg (hnot _ (fieldsAt_of_fetch hr hfetch)))⟩

theorem stateAfter_succ_result_of_movres {bytes : List Byte} {s : State} {k : Nat} {f : Fields}
    (hf : fieldsAt (stateAfter bytes k s) = some f) (hop : f.op = 6#4) :
    (stateAfter bytes (k + 1) s).result = (stateAfter bytes k s).readReg f.reg0 := by
  obtain ⟨t, ht, hres⟩ := step_result_of_movres hf hop
  rw [stateAfter_succ_of_step ht, hres]

/-- Step number `k` of a run need not take place; then `result` is kept too. -/
theorem stateAfter_succ_result_of_not_movres {bytes : List Byte} {s : State} {k : Nat}
    (hnot : ∀ f, fieldsAt (stateAfter bytes k s) = some f → f.op ≠ 6#4) :
    (stateAfter bytes (k + 1) s).result = (stateAfter bytes k s).result := by
  by_cases hr : (stateAfter bytes k s).runState = .running
  · obtain ⟨t, ht, hres⟩ := step_result_of_not_movres hr hnot
    rw [stateAfter_succ_of_step ht, hres]
  · rw [stateAfter_succ_of_not_running hr]

/-- A stretch of a run in which no step has a MOVRES at `pc` keeps `result`. -/
theorem stateAfter_result_of_no_movres {bytes : List Byte} {s : State} {j k : Nat} (hjk : j ≤ k)
    (hnot : ∀ m, j ≤ m → m < k → ∀ f, fieldsAt (stateAfter bytes m s) = some f → f.op ≠ 6#4) :
    (stateAfter bytes k s).result = (stateAfter bytes j s).result := by
  induction k, hjk using Nat.le_induction with
  | base => rfl
  | succ k hjk ih =>
    rw [stateAfter_succ_result_of_not_movres (hnot k hjk (Nat.lt_succ_self k))]
    exact ih fun m hjm hmk => hnot m hjm (Nat.lt_succ_of_lt hmk)

/-- Settles O39: without a MOVRES the whole run so far keeps the 0 that it starts with; after the last MOVRES, the stretch
that follows keeps what this MOVRES moved. -/
theorem resultIsTheLastMovresOrZero : Obligations.ResultIsTheLastMovresOrZero := by
  unfold Obligations.ResultIsTheLastMovresOrZero
  intro bytes s k
  constructor
  · intro hnone
    calc (stateAfter bytes k s).result
      _ = (stateAfter bytes 0 s).result := stateAfter_result_of_no_movres (Nat.zero_le k) fun m _ => hnone m
      _ = 0#64 := result_beginRun bytes s
  · intro j f hjk hf hop hlast
    calc (stateAfter bytes k s).result
      _ = (stateAfter bytes (j + 1) s).result := stateAfter_result_of_no_movres hjk hlast
      _ = (stateAfter bytes j s).readReg f.reg0 := stateAfter_succ_result_of_movres hf hop

end Sys2Proof.Machine

/-! PROOF. The codec (R99, R103 to R105): the round trip of instructions and of statements, the round trip of byte pairs,
and the opcode table as another description of the operation code. -/

namespace Sys2Proof

/-! Instructions to bytes and back. -/

/-- The operands of an instruction fit the fields that hold them, so they pass the range check (R25, R85). -/
theorem wellFormed_eq_true (i : Instr) : i.wellFormed = true := by
  cases i with
  | done => exact Laws.OperandsInRange.done
  | loadi d k => exact Laws.OperandsInRange.loadi d k
  | add a b c => exact Laws.OperandsInRange.add a b c
  | sub a b c => exact Laws.OperandsInRange.sub a b c
  | div a b c => exact Laws.OperandsInRange.div a b c
  | mul a b c => exact Laws.OperandsInRange.mul a b c
  | movres a => exact Laws.OperandsInRange.movres a

/-- Settles O3: the operands are in range, and each operation code selects its own row, which reads the operands back. -/
theorem decodeOfEncodeIsTheInstruction : Obligations.DecodeOfEncodeIsTheInstruction := by
  unfold Obligations.DecodeOfEncodeIsTheInstruction
  exact fun i => ⟨wellFormed_eq_true i, decode_encode i⟩

/-- Settles O1: eight words, each decoded by evaluation. -/
theorem sampleWordsDecodeToTheirInstructions : Obligations.SampleWordsDecodeToTheirInstructions := by
  unfold Obligations.SampleWordsDecodeToTheirInstructions
  decide

/-! Statements to bytes and back. -/

theorem toNat_ofNat_of_regInRange {n : Nat} (h : regInRange n = true) : (BitVec.ofNat 4 n).toNat = n :=
  Nat.mod_eq_of_lt (of_decide_eq_true h)

theorem toNat_ofNat_of_immInRange {n : Nat} (h : immInRange n = true) : (BitVec.ofNat 8 n).toNat = n :=
  Nat.mod_eq_of_lt (of_decide_eq_true h)

/-- Operands in range lose nothing when they are put into an instruction's fields. -/
theorem toStmt_toInstr {st : Stmt} (h : st.wellFormed = true) : st.toInstr.toStmt = st := by
  cases st with
  | done => rfl
  | loadi d k =>
    obtain ⟨hd, hk⟩ : regInRange d = true ∧ immInRange k = true := by simpa [Stmt.wellFormed] using h
    simp [Stmt.toInstr, Instr.toStmt, toNat_ofNat_of_regInRange hd, toNat_ofNat_of_immInRange hk, -BitVec.toNat_ofNat]
  | movres a =>
    simp [Stmt.toInstr, Instr.toStmt, toNat_ofNat_of_regInRange h, -BitVec.toNat_ofNat]
  | add a b c | sub a b c | div a b c | mul a b c =>
    obtain ⟨⟨ha, hb⟩, hc⟩ : (regInRange a = true ∧ regInRange b = true) ∧ regInRange c = true := by
      simpa [Stmt.wellFormed] using h
    simp [Stmt.toInstr, Instr.toStmt, toNat_ofNat_of_regInRange ha, toNat_ofNat_of_regInRange hb,
      toNat_ofNat_of_regInRange hc, -BitVec.toNat_ofNat]

theorem assembleStmt_of_wellFormed {st : Stmt} (h : st.wellFormed = true) : assembleStmt st = .ok (encode st.toInstr) :=
  if_pos h

theorem assembleStmt_of_not_wellFormed {st : Stmt} (h : st.wellFormed = false) :
    assembleStmt st = .error .operandOutOfRange := by
  simp [assembleStmt, h]

/-- Settles O4: a statement in range is assembled to the encoding of its instruction, which decodes to that instruction. -/
theorem assembledStatementsDecodeToThemselves : Obligations.AssembledStatementsDecodeToThemselves := by
  unfold Obligations.AssembledStatementsDecodeToThemselves
  intro st
  constructor
  · intro h
    exact ⟨_, _, st.toInstr, assembleStmt_of_wellFormed h, decode_encode st.toInstr, toStmt_toInstr h⟩
  · exact assembleStmt_of_not_wellFormed

/-! Bytes to fields or instructions and back. -/

theorem joinNibbles_high_low : ∀ b : Byte, joinNibbles (b.extractLsb' 4 4) (b.extractLsb' 0 4) = b := by decide

/-- The codec on the raw pair loses nothing (R105 (b)). -/
theorem joinFields_splitFields (b0 b1 : Byte) : joinFields (splitFields b0 b1) = (b0, b1) :=
  Prod.ext (joinNibbles_high_low b0) (joinNibbles_high_low b1)

/-- Every encoding is canonical (R96). -/
theorem canonicalPair_encode (i : Instr) : canonicalPair (encode i).1 (encode i).2 = true := by
  cases i with
  | done => exact Laws.CanonicalEncoding.done.2
  | loadi d k => exact (Laws.CanonicalEncoding.loadi d k).2
  | add a b c => exact (Laws.CanonicalEncoding.add a b c).2
  | sub a b c => exact (Laws.CanonicalEncoding.sub a b c).2
  | div a b c => exact (Laws.CanonicalEncoding.div a b c).2
  | mul a b c => exact (Laws.CanonicalEncoding.mul a b c).2
  | movres a => exact (Laws.CanonicalEncoding.movres a).2

/-- The instruction of a canonical pair encodes to the pair: the bits that its operation code leaves unused are 0 in both. -/
theorem encode_of_canonicalPair {b0 b1 : Byte} {i : Instr} (hd : decode b0 b1 = .instr i)
    (hc : canonicalPair b0 b1 = true) : encode i = (b0, b1) := by
  have h0 : joinNibbles (splitFields b0 b1).op (splitFields b0 b1).reg0 = b0 := joinNibbles_high_low b0
  have h1 : joinNibbles (splitFields b0 b1).reg1 (splitFields b0 b1).reg2 = b1 := joinNibbles_high_low b1
  rcases selectInstr_cases (splitFields b0 b1) with
    ⟨ho, hs⟩ | ⟨ho, hs⟩ | ⟨ho, hs⟩ | ⟨ho, hs⟩ | ⟨ho, hs⟩ | ⟨ho, hs⟩ | ⟨ho, hs⟩ | ⟨-, hs⟩
  all_goals cases hs.symm.trans hd
  all_goals rw [ho] at h0
  · -- DONE
    obtain ⟨hreg0, hb1⟩ : (splitFields b0 b1).reg0 = 0#4 ∧ b1 = 0#8 := by simpa [canonicalPair, ho] using hc
    rw [hreg0] at h0
    exact Prod.ext h0 hb1.symm
  · -- LOADI
    exact Prod.ext h0 rfl
  · -- ADD
    exact Prod.ext h0 h1
  · -- SUB
    exact Prod.ext h0 h1
  · -- DIV
    exact Prod.ext h0 h1
  · -- MUL
    exact Prod.ext h0 h1
  · -- MOVRES
    have hb1 : b1 = 0#8 := by simpa [canonicalPair, ho] using hc
    exact Prod.ext h0 hb1.symm

/-- Settles O5: the two nibbles of each byte are its fields, and an encoding is canonical. -/
theorem encodeOfDecodeIsTheCanonicalPair : Obligations.EncodeOfDecodeIsTheCanonicalPair := by
  unfold Obligations.EncodeOfDecodeIsTheCanonicalPair
  refine fun b0 b1 => ⟨joinFields_splitFields b0 b1, fun i hd => ⟨fun he => ?_, encode_of_canonicalPair hd⟩⟩
  simpa [he] using canonicalPair_encode i

/-! The opcode table. -/

/-- The operation code of two bytes is that of the instruction they decode to. -/
theorem op_of_decode_instr {b0 b1 : Byte} {i : Instr} (hd : decode b0 b1 = .instr i) :
    (splitFields b0 b1).op = i.opcode := by
  rcases selectInstr_cases (splitFields b0 b1) with
    ⟨ho, hs⟩ | ⟨ho, hs⟩ | ⟨ho, hs⟩ | ⟨ho, hs⟩ | ⟨ho, hs⟩ | ⟨ho, hs⟩ | ⟨ho, hs⟩ | ⟨-, hs⟩
  all_goals cases hs.symm.trans hd
  all_goals exact ho

/-- Two bytes are rejected with their own operation code, and only with one of 7 to 15 (R94). -/
theorem op_of_decode_reserved {b0 b1 : Byte} {op : Nibble} (hd : decode b0 b1 = .reservedOpcode op) :
    (splitFields b0 b1).op = op ∧ 7 ≤ op.toNat := by
  rcases selectInstr_cases (splitFields b0 b1) with
    ⟨-, hs⟩ | ⟨-, hs⟩ | ⟨-, hs⟩ | ⟨-, hs⟩ | ⟨-, hs⟩ | ⟨-, hs⟩ | ⟨-, hs⟩ | ⟨ho, hs⟩
  all_goals cases hs.symm.trans hd
  exact ⟨rfl, ho⟩

theorem mask_of_mem_opcodeTable : ∀ r ∈ opcodeTable, r.mask = 0xF000#16 := by decide

theorem pattern_inj_of_mem_opcodeTable :
    ∀ r ∈ opcodeTable, ∀ r' ∈ opcodeTable, r.pattern = r'.pattern → r = r' := by decide

/-- Every row looks at the topmost four bits of the word only. -/
theorem matches_of_mem_opcodeTable {r : OpcodeRow} (hr : r ∈ opcodeTable) (iw : BitVec 16) :
    r.matches iw = (iw &&& 0xF000#16 == r.pattern) := by
  rw [OpcodeRow.matches, mask_of_mem_opcodeTable r hr]

/-- These four bits are the operation code (R10, R81). -/
theorem instrWord_and_mask (b0 b1 : Byte) : instrWord b0 b1 &&& 0xF000#16 = (splitFields b0 b1).op ++ 0#12 := by
  have hbyte : ∀ b : Byte, (b &&& 0xF0#8) ++ 0#8 = b.extractLsb' 4 4 ++ 0#12 := by decide
  calc instrWord b0 b1 &&& 0xF000#16
    _ = (b0 ++ b1) &&& (0xF0#8 ++ 0#8) := rfl
    _ = (b0 &&& 0xF0#8) ++ (b1 &&& 0#8) := BitVec.and_append
    _ = (b0 &&& 0xF0#8) ++ 0#8 := by rw [BitVec.and_zero]
    _ = (splitFields b0 b1).op ++ 0#12 := hbyte b0

/-- The table lists its rows by rising operation code, from 0. -/
theorem find?_pattern_opcodeTable : ∀ op : Nibble,
    opcodeTable.find? (fun r => op ++ 0#12 == r.pattern) = opcodeTable[op.toNat]? := by decide

/-- The row that the search finds is the one whose place in the table is the operation code (R99). -/
theorem findRow_instrWord (b0 b1 : Byte) :
    findRow (instrWord b0 b1) = opcodeTable[(splitFields b0 b1).op.toNat]? := by
  rw [← find?_pattern_opcodeTable, ← instrWord_and_mask]
  exact List.find?_congr fun r hr => matches_of_mem_opcodeTable hr _

theorem mnemonic_opcodeTable (i : Instr) : ∃ r, opcodeTable[i.opcode.toNat]? = some r ∧ r.mnemonic = i.mnemonic := by
  cases i <;> exact ⟨_, rfl, rfl⟩

/-- Settles O6: the row found stands at the operation code's place in the table, and no two rows have one pattern. -/
theorem opcodeTableAgreesWithDecoder : Obligations.OpcodeTableAgreesWithDecoder := by
  unfold Obligations.OpcodeTableAgreesWithDecoder
  refine ⟨fun b0 b1 => ⟨fun i hd => ?_, fun op hd => ?_⟩, fun iw r r' hr hr' hm hm' => ?_⟩
  · rw [findRow_instrWord, op_of_decode_instr hd]
    exact mnemonic_opcodeTable i
  · obtain ⟨rfl, hop⟩ := op_of_decode_reserved hd
    rw [findRow_instrWord]
    exact List.getElem?_eq_none hop
  · rw [matches_of_mem_opcodeTable hr, beq_iff_eq] at hm
    rw [matches_of_mem_opcodeTable hr', beq_iff_eq] at hm'
    exact pattern_inj_of_mem_opcodeTable r hr r' hr' (hm.symm.trans hm')

end Sys2Proof

/-! PROOF. Single steps (R120 to R127): when there is one, what one instruction or one fault leaves, and the two ways in
which a step ends, as the end of an instruction or as a fault, each with its frame. -/

namespace Sys2Proof

theorem encode_div (a b c : RegIdx) :
    encode (.div a b c) = (0x40#8 + a.setWidth 8, 16#8 * b.setWidth 8 + c.setWidth 8) :=
  joinNibbles_pair_eq_add 4#4 a b c

theorem joinNibbles_six (r : RegIdx) : joinNibbles 6#4 r = 0x60#8 + r.setWidth 8 :=
  joinNibbles_eq_add 6#4 r

theorem joinNibbles_zero : ∀ low : Nibble, joinNibbles 0#4 low = low.setWidth 8 := by decide

/-- The second byte of a MOVRES is ignored (R95). -/
theorem decode_joinNibbles_six (r : RegIdx) (b1 : Byte) : decode (joinNibbles 6#4 r) b1 = .instr (.movres r) := by
  simp [decode, selectInstr, splitFields_op_join, splitFields_reg0_join]

/-- All bits of a DONE but its operation code are ignored (R95). -/
theorem decode_joinNibbles_zero (low : Nibble) (b1 : Byte) : decode (joinNibbles 0#4 low) b1 = .instr .done := by
  simp [decode, selectInstr, splitFields_op_join]

end Sys2Proof

namespace Sys2Proof.Machine

/-! Whether there is a step. -/

/-- Settles O7: the two bytes at `pc` are what the step fetches. -/
theorem stepRunsTheDecodedInstruction : Obligations.StepRunsTheDecodedInstruction := by
  unfold Obligations.StepRunsTheDecodedInstruction
  intro s b0 b1 i hr h0 h1 hd
  exact step_of_fetch_instr hr ((fetch_eq_some_iff s b0 b1).mpr ⟨h0, h1⟩) hd

theorem step_of_idle {s : State} (h : s.runState = .idle) : step s = .fault .noStepInIdle := by
  simp [step, stepFront, h]

theorem step_of_halted {s : State} (h : s.runState = .halted) : step s = .fault .noStepInHalted := by
  simp [step, stepFront, h]

theorem step_of_failed {s : State} (h : s.runState = .failed) : step s = .fault .noStepInFailed := by
  simp [step, stepFront, h]

/-- Settles O8: in Running the fetch, the decoder and every instruction answer; elsewhere the front of the step stops. -/
theorem stepExistsExactlyWhileRunning : Obligations.StepExistsExactlyWhileRunning := by
  unfold Obligations.StepExistsExactlyWhileRunning
  exact fun s =>
    ⟨⟨fun ⟨_, h⟩ => running_of_step h, step_answers_next⟩, step_of_idle, step_of_halted, step_of_failed⟩

/-! Single instructions and single faults. -/

/-- The unsigned quotient is the largest number whose product with the divisor does not exceed the dividend (R148, R152). -/
theorem quotOf_bounds (a : Word) {b : Word} (hb : b ≠ 0#64) :
    (quotOf a b).toNat * b.toNat ≤ a.toNat ∧ a.toNat < ((quotOf a b).toNat + 1) * b.toNat := by
  have hpos : 0 < b.toNat := Nat.pos_of_ne_zero (BitVec.toNat_ne_iff_ne.mpr hb)
  rw [quotOf, BitVec.toNat_udiv]
  exact ⟨Nat.div_mul_le_self _ _, Nat.lt_mul_of_div_lt (Nat.lt_succ_self _) hpos⟩

/-- Settles O13: with a non-zero divisor executing DIV is one register write of the quotient. -/
theorem divWritesTheFloorQuotient : Obligations.DivWritesTheFloorQuotient := by
  unfold Obligations.DivWritesTheFloorQuotient
  intro s0 s1 d s
  have henc := encode_div s0 s1 d
  refine ⟨henc, decode_of_encode_eq henc, fun hb => ?_⟩
  exact ⟨_, _, exec_div_of_ne_zero hb, writesOnlyReg_writeReg_advancePc s d _, quotOf_bounds (s.readReg s0) hb⟩

/-- Taking a fault changes the run state and the fault record only (R205). -/
theorem takesFault_raiseFault (s : State) (kind : FaultKind) (code : Nibble) :
    TakesFault kind code s (s.raiseFault kind code) where
  runState := rfl
  fault := rfl
  regs := readReg_raiseFault s kind code
  result := rfl
  pc := rfl
  program _ := rfl

/-- Settles O14: with a zero divisor executing DIV is taking the fault. -/
theorem divByZeroTakesTheFaultAndWritesNothing : Obligations.DivByZeroTakesTheFaultAndWritesNothing := by
  unfold Obligations.DivByZeroTakesTheFaultAndWritesNothing
  intro s0 s1 d s hz
  exact ⟨_, exec_div_of_zero hz, takesFault_raiseFault s .divisionByZero 0#4⟩

theorem writesOnlyResult_writeResult_advancePc (s : State) (v : Word) :
    WritesOnlyResult v s (s.writeResult v).advancePc where
  result := rfl
  regs := readReg_writeResult s v
  pc := rfl
  runState := rfl
  fault := rfl
  program _ := rfl

theorem exec_movres (r : RegIdx) (s : State) :
    exec (.movres r) s = .next (s.writeResult (s.readReg r)).advancePc := rfl

theorem exec_done (s : State) : exec .done s = .next s.halt.advancePc := rfl

/-- Settles O15: the nibbles 6 and `r` decode to MOVRES before any second byte, and executing it is one write of `result`. -/
theorem movresCopiesTheRegisterToResult : Obligations.MovresCopiesTheRegisterToResult := by
  unfold Obligations.MovresCopiesTheRegisterToResult
  intro r b1 s
  rw [← joinNibbles_six]
  exact ⟨rfl, decode_joinNibbles_six r b1, _, exec_movres r s, writesOnlyResult_writeResult_advancePc s (s.readReg r)⟩

/-- Settles O16: a byte below 16 is the nibble 0 and the rest, which decode to DONE; executing it halts, and there is no
step in Halted. -/
theorem doneHaltsAndWritesNothing : Obligations.DoneHaltsAndWritesNothing := by
  unfold Obligations.DoneHaltsAndWritesNothing
  intro low b1 s
  rw [← joinNibbles_zero]
  exact ⟨rfl, decode_joinNibbles_zero low b1, _, exec_done s, rfl, readReg_halt s, rfl, rfl, rfl, fun _ => rfl,
    step_of_halted rfl⟩

/-- Settles O19: the step takes the fault with the operation code that it fetched. -/
theorem unknownOpcodeRecordsCodeAndPosition : Obligations.UnknownOpcodeRecordsCodeAndPosition := by
  unfold Obligations.UnknownOpcodeRecordsCodeAndPosition
  intro s b0 b1 hr h0 h1 hop
  have hf : s.fetch = some (b0, b1) := (fetch_eq_some_iff s b0 b1).mpr ⟨h0, h1⟩
  exact ⟨_, step_of_fetch_reserved hr hf (decode_of_reserved b1 hop), takesFault_raiseFault s .unknownOpcode _⟩

/-! The two ways in which a step ends. -/

/-- What every step that completes an instruction leaves, whatever the instruction writes (R125, R126). -/
structure CompletesInstr (s t : State) : Prop where
  inside : s.pc + 2 ≤ s.progLen
  runState : t.runState = .running ∨ t.runState = .halted
  pc : t.pc = s.pc + 2
  fault : t.fault = s.fault
  prog : t.prog = s.prog
  progLen : t.progLen = s.progLen

/-- The kinds of fault that a step takes, each with the codes that it is recorded with (R35). -/
structure LegalFault (kind : FaultKind) (code : Nibble) : Prop where
  named : kind ≠ .none
  unknownOpcode : kind = .unknownOpcode → 7 ≤ code.toNat
  otherKind : kind ≠ .unknownOpcode → code = 0#4

/-- Only UnknownOpcode records a code (R35). -/
theorem legalFault_of_ne {kind : FaultKind} (hnone : kind ≠ .none) (hop : kind ≠ .unknownOpcode) :
    LegalFault kind 0#4 :=
  ⟨hnone, fun e => absurd e hop, fun _ => rfl⟩

theorem add_two_le_of_fetch {s : State} {b0 b1 : Byte} (hf : s.fetch = some (b0, b1)) : s.pc + 2 ≤ s.progLen := by
  by_contra h
  have : s.fetch = none := (fetch_eq_none_iff s).mpr (by omega)
  simp [this] at hf

/-- A step completes an instruction or takes a fault. -/
theorem step_completes_or_faults {s t : State} (h : step s = .next t) :
    CompletesInstr s t ∨ ∃ kind code, LegalFault kind code ∧ t = s.raiseFault kind code := by
  have hr := running_of_step h
  rcases step_inversion h with ⟨-, rfl⟩ | ⟨b0, b1, op, -, hd, rfl⟩ | ⟨b0, b1, i, hf, -, -, hcases⟩
  · exact .inr ⟨_, _, legalFault_of_ne (by decide) (by decide), rfl⟩
  · exact .inr ⟨_, _, ⟨by decide, fun _ => (op_of_decode_reserved hd).2, fun e => absurd rfl e⟩, rfl⟩
  · have hin := add_two_le_of_fetch hf
    rcases hcases with ⟨d, v, -, -, rfl⟩ | ⟨r, -, rfl⟩ | ⟨-, rfl⟩ | ⟨a, b, d, -, -, rfl⟩
    · exact .inl ⟨hin, .inl hr, rfl, rfl, rfl, rfl⟩
    · exact .inl ⟨hin, .inl hr, rfl, rfl, rfl, rfl⟩
    · exact .inl ⟨hin, .inr rfl, rfl, rfl, rfl, rfl⟩
    · exact .inr ⟨_, _, legalFault_of_ne (by decide) (by decide), rfl⟩

theorem CompletesInstr.not_failed {s t : State} (h : CompletesInstr s t) : t.runState ≠ .failed := by
  rcases h.runState with hr | hr <;> simp [hr]

/-- Settles O20: a step that ends in Failed did not complete an instruction, so it took a fault and did nothing else. -/
theorem everyFaultIsPreciseAndFatal : Obligations.EveryFaultIsPreciseAndFatal := by
  unfold Obligations.EveryFaultIsPreciseAndFatal
  intro s t h hfail
  rcases step_completes_or_faults h with hc | ⟨kind, code, hlegal, rfl⟩
  · exact absurd hfail hc.not_failed
  · exact ⟨hlegal.named, takesFault_raiseFault s kind code, step_of_failed hfail⟩

/-- Settles O22: a completed instruction adds 2 and is not in Failed, a fault adds nothing. -/
theorem pcAdvancesByTwoExceptOnFaults : Obligations.PcAdvancesByTwoExceptOnFaults := by
  unfold Obligations.PcAdvancesByTwoExceptOnFaults
  intro s t h
  rcases step_completes_or_faults h with hc | ⟨kind, code, -, rfl⟩
  · rw [if_neg hc.not_failed, hc.pc]
  · rfl

theorem progByte_congr {s t : State} (hprog : t.prog = s.prog) (hlen : t.progLen = s.progLen) : SameProgram s t := by
  intro a
  rw [State.progByte, State.progByte, hprog, hlen]

/-- Settles O24: neither a completed instruction nor a fault writes the program store or the length. -/
theorem noStepWritesTheProgram : Obligations.NoStepWritesTheProgram := by
  unfold Obligations.NoStepWritesTheProgram
  intro s t h
  have hsame : t.prog = s.prog ∧ t.progLen = s.progLen := by
    rcases step_completes_or_faults h with hc | ⟨kind, code, -, rfl⟩
    · exact ⟨hc.prog, hc.progLen⟩
    · exact ⟨rfl, rfl⟩
  exact ⟨hsame.1, hsame.2, progByte_congr hsame.1 hsame.2⟩

end Sys2Proof.Machine

/-! PROOF. The block view of a step (R170 to R175): what the dispatch multiplexer drives for each operation code, that
exactly one of its four effects is active, and that committing its outputs is what the instruction or the fault does. -/

namespace Sys2Proof.Machine

/-! The multiplexer's arithmetic, exact on numbers, is that of the instructions. -/

theorem quotOf_eq_ofNat (a b : Word) : quotOf a b = BitVec.ofNat 64 (a.toNat / b.toNat) := by
  rw [quotOf, ← BitVec.toNat_udiv, BitVec.ofNat_toNat, BitVec.setWidth_eq]

/-- The difference with 2^64 added first, so that it cannot be negative (R173). -/
theorem diffOf_eq_ofNat_mod (a b : Word) : diffOf a b = BitVec.ofNat 64 ((2 ^ 64 + a.toNat - b.toNat) % 2 ^ 64) := by
  apply BitVec.eq_of_toNat_eq
  rw [diffOf, BitVec.toNat_sub, BitVec.toNat_ofNat]
  omega

/-! The multiplexer for a reserved operation code, and when it raises no fault. -/

theorem muxRfWe_of_seven_le {op : Nibble} (h : 7 ≤ op.toNat) (b : Word) : muxRfWe op b = false := by
  unfold muxRfWe
  split
  case h_6 => rfl
  all_goals omega

theorem muxFaultKind_of_seven_le {op : Nibble} (h : 7 ≤ op.toNat) (b : Word) : muxFaultKind op b = .unknownOpcode :=
  if_pos h

/-- The multiplexer raises no fault for an operation code that is not reserved, unless it is a DIV by zero. -/
theorem muxFaultKind_eq_none_iff (op : Nibble) (b : Word) :
    muxFaultKind op b = .none ↔ op.toNat ≤ 6 ∧ (op.toNat = 4 → b ≠ 0#64) := by
  by_cases h7 : 7 ≤ op.toNat
  · simp [muxFaultKind_of_seven_le h7, Nat.not_le.mpr h7]
  · have hb : b.toNat = 0 ↔ b = 0#64 := BitVec.toNat_inj (y := 0#64)
    simp [muxFaultKind, h7, Nat.not_lt.mp h7, hb]

/-! The control signals. -/

/-- The four outputs that say which effect is active (R173). -/
structure Drives (m : MuxOut) (rfWe resWe halt : Bool) (kind : FaultKind) : Prop where
  rfWe : m.rfWe = rfWe
  resWe : m.resWe = resWe
  halt : m.halt = halt
  faultKind : m.faultKind = kind

section
variable {f : Fields} {a b : Word}

theorem dispatchMux_done (ho : f.op = 0#4) : Drives (dispatchMux f a b) false false true .none := by
  constructor <;> simp [dispatchMux, muxRfWe, muxFaultKind, ho]

/-- The instructions that write a register whatever the operands are: LOADI, ADD, SUB, MUL. -/
theorem dispatchMux_write (ho : f.op = 1#4 ∨ f.op = 2#4 ∨ f.op = 3#4 ∨ f.op = 5#4) :
    Drives (dispatchMux f a b) true false false .none := by
  rcases ho with ho | ho | ho | ho <;> constructor <;> simp [dispatchMux, muxRfWe, muxFaultKind, ho]

theorem dispatchMux_div_of_zero (ho : f.op = 4#4) (hb : b = 0#64) :
    Drives (dispatchMux f a b) false false false .divisionByZero := by
  constructor <;> simp [dispatchMux, muxRfWe, muxFaultKind, ho, hb]

theorem dispatchMux_div_of_ne_zero (ho : f.op = 4#4) (hb : b ≠ 0#64) :
    Drives (dispatchMux f a b) true false false .none := by
  have hb' : b.toNat ≠ 0 := BitVec.toNat_ne_iff_ne.mpr hb
  constructor <;> simp [dispatchMux, muxRfWe, muxFaultKind, ho, hb']

theorem dispatchMux_movres (ho : f.op = 6#4) : Drives (dispatchMux f a b) false true false .none := by
  constructor <;> simp [dispatchMux, muxRfWe, muxFaultKind, ho]

theorem dispatchMux_reserved (ho : 7 ≤ f.op.toNat) : Drives (dispatchMux f a b) false false false .unknownOpcode where
  rfWe := muxRfWe_of_seven_le ho b
  resWe := decide_eq_false (by omega)
  halt := decide_eq_false (by omega)
  faultKind := muxFaultKind_of_seven_le ho b

end

/-- The number of active effects, from the control signals. -/
theorem Drives.effects {m : MuxOut} {rfWe resWe halt : Bool} {kind : FaultKind} {n : Nat}
    (h : Drives m rfWe resWe halt kind)
    (hn : rfWe.toNat + resWe.toNat + halt.toNat + (decide (kind ≠ .none)).toNat = n) :
    m.rfWe.toNat + m.resWe.toNat + m.halt.toNat + (decide (m.faultKind ≠ .none)).toNat = n := by
  rw [h.rfWe, h.resWe, h.halt, h.faultKind, hn]

/-- Settles O43, by the operation code: the control signals of each have one active effect. -/
theorem dispatchActivatesExactlyOneEffect : Obligations.DispatchActivatesExactlyOneEffect := by
  unfold Obligations.DispatchActivatesExactlyOneEffect
  intro f a b
  rcases selectInstr_cases f with
    ⟨ho, -⟩ | ⟨ho, -⟩ | ⟨ho, -⟩ | ⟨ho, -⟩ | ⟨ho, -⟩ | ⟨ho, -⟩ | ⟨ho, -⟩ | ⟨ho, -⟩
  · -- DONE
    exact (dispatchMux_done ho).effects rfl
  · -- LOADI
    exact (dispatchMux_write (.inl ho)).effects rfl
  · -- ADD
    exact (dispatchMux_write (.inr (.inl ho))).effects rfl
  · -- SUB
    exact (dispatchMux_write (.inr (.inr (.inl ho)))).effects rfl
  · -- DIV
    by_cases hb : b = 0#64
    · exact (dispatchMux_div_of_zero ho hb).effects rfl
    · exact (dispatchMux_div_of_ne_zero ho hb).effects rfl
  · -- MUL
    exact (dispatchMux_write (.inr (.inr (.inr ho)))).effects rfl
  · -- MOVRES
    exact (dispatchMux_movres ho).effects rfl
  · -- a reserved code
    exact (dispatchMux_reserved ho).effects rfl

/-! Committing each effect. -/

section
variable {s : State} {m : MuxOut}

theorem commitMux_of_write (h : Drives m true false false .none) :
    commitMux s m = (s.writeReg m.rfWaddr m.rfWdata).advancePc := by
  simp [commitMux, regFileWrite, State.writeReg, State.advancePc, h.rfWe, h.resWe, h.halt, h.faultKind]

theorem commitMux_of_writeResult (h : Drives m false true false .none) :
    commitMux s m = (s.writeResult m.resWdata).advancePc := by
  simp [commitMux, regFileWrite, State.writeResult, State.advancePc, h.rfWe, h.resWe, h.halt, h.faultKind]

theorem commitMux_of_halt (h : Drives m false false true .none) : commitMux s m = s.halt.advancePc := by
  simp [commitMux, regFileWrite, State.halt, State.advancePc, h.rfWe, h.resWe, h.halt, h.faultKind]

/-- The fault record takes the multiplexer's code for UnknownOpcode only (R35; log entry 18). -/
theorem commitMux_of_fault {kind : FaultKind} (hkind : kind ≠ .none) (h : Drives m false false false kind) :
    commitMux s m = s.raiseFault kind (if kind = .unknownOpcode then m.faultCode else 0#4) := by
  simp [commitMux, regFileWrite, State.raiseFault, h.rfWe, h.resWe, h.faultKind, hkind]

end

/-! The step. -/

/-- The step of the four sub-blocks on two fetched bytes. -/
theorem datapathStep_of_fetch {s : State} {b0 b1 : Byte} (hf : s.fetch = some (b0, b1)) :
    datapathStep s = commitMux s (dispatchMux (splitFields b0 b1) (s.readReg (splitFields b0 b1).reg0)
      (s.readReg (splitFields b0 b1).reg1)) := by
  have hlong : ¬ s.progLen - s.pc < 2 := fun h => by simp [(fetch_eq_none_iff s).mpr h] at hf
  obtain ⟨rfl, rfl⟩ : Memory.read s.prog s.pc = b0 ∧ Memory.read s.prog (s.pc + 1) = b1 := by
    simpa [State.fetch, hlong] using hf
  exact if_neg hlong

theorem datapathStep_of_fetch_none {s : State} (hf : s.fetch = none) :
    datapathStep s = s.raiseFault .unexpectedEndOfProgram 0#4 :=
  if_pos ((fetch_eq_none_iff s).mp hf)

/-- An instruction that writes one register is the multiplexer's write at the same address with the same data. -/
theorem exec_eq_commitMux_of_write {i : Instr} {s : State} {m : MuxOut} {d : RegIdx} {v : Word}
    (he : exec i s = .next (s.writeReg d v).advancePc) (hm : Drives m true false false .none) (haddr : m.rfWaddr = d)
    (hdata : m.rfWdata = v) : exec i s = .next (commitMux s m) := by
  rw [he, commitMux_of_write hm, haddr, hdata]

/-- Settles O42, by the operation code: the instruction it selects and the effect that the multiplexer activates for it are
the same write, the same halt or the same fault. -/
theorem datapathComputesTheStep : Obligations.DatapathComputesTheStep := by
  unfold Obligations.DatapathComputesTheStep
  intro s hr
  cases hf : s.fetch with
  | none => rw [step_of_fetch_none hr hf, datapathStep_of_fetch_none hf]
  | some p =>
    obtain ⟨b0, b1⟩ := p
    rw [datapathStep_of_fetch hf]
    have hrun {i : Instr} (hs : selectInstr (splitFields b0 b1) = .instr i) : step s = exec i s :=
      step_of_fetch_instr hr hf hs
    rcases selectInstr_cases (splitFields b0 b1) with
      ⟨ho, hs⟩ | ⟨ho, hs⟩ | ⟨ho, hs⟩ | ⟨ho, hs⟩ | ⟨ho, hs⟩ | ⟨ho, hs⟩ | ⟨ho, hs⟩ | ⟨ho, hs⟩
    · -- DONE
      rw [hrun hs, exec_done, commitMux_of_halt (dispatchMux_done ho)]
    · -- LOADI
      rw [hrun hs]
      exact exec_eq_commitMux_of_write (exec_loadi _ _ s) (dispatchMux_write (.inl ho)) (by simp [dispatchMux, ho])
        (by simp [dispatchMux, muxRfWdata, ho, zext64_eq_ofNat])
    · -- ADD
      rw [hrun hs]
      exact exec_eq_commitMux_of_write (exec_add _ _ _ s) (dispatchMux_write (.inr (.inl ho)))
        (by simp [dispatchMux, ho]) (by simp [dispatchMux, muxRfWdata, ho, sumOf_eq_ofNat])
    · -- SUB
      rw [hrun hs]
      exact exec_eq_commitMux_of_write (exec_sub _ _ _ s) (dispatchMux_write (.inr (.inr (.inl ho))))
        (by simp [dispatchMux, ho]) (by simp [dispatchMux, muxRfWdata, ho, diffOf_eq_ofNat_mod])
    · -- DIV
      rw [hrun hs]
      by_cases hz : s.readReg (splitFields b0 b1).reg1 = 0#64
      · rw [exec_div_of_zero hz, commitMux_of_fault (by decide) (dispatchMux_div_of_zero ho hz)]
        rfl
      · exact exec_eq_commitMux_of_write (exec_div_of_ne_zero hz) (dispatchMux_div_of_ne_zero ho hz)
          (by simp [dispatchMux, ho]) (by simp [dispatchMux, muxRfWdata, ho, quotOf_eq_ofNat])
    · -- MUL
      rw [hrun hs]
      exact exec_eq_commitMux_of_write (exec_mul _ _ _ s) (dispatchMux_write (.inr (.inr (.inr ho))))
        (by simp [dispatchMux, ho]) (by simp [dispatchMux, muxRfWdata, ho, prodOf_eq_ofNat])
    · -- MOVRES
      rw [hrun hs, exec_movres, commitMux_of_writeResult (dispatchMux_movres ho)]
      rfl
    · -- a reserved code
      rw [step_of_fetch_reserved hr hf hs, commitMux_of_fault (by decide) (dispatchMux_reserved ho)]
      rfl

end Sys2Proof.Machine

/-! PROOF. What the state keeps (R28, R29, R33 to R35, R201 to R203): the causes for which a step leaves Running, the shape
of the state and the cause of an ended run under steps and the host's moves, and the program that a run or a placed word
binds. -/

namespace Sys2Proof

/-- The operands of a decoded DIV are the fields of its bytes (R91). -/
theorem fields_of_decode_div {b0 b1 : Byte} {a b d : RegIdx} (hd : decode b0 b1 = .instr (.div a b d)) :
    (splitFields b0 b1).reg0 = a ∧ (splitFields b0 b1).reg1 = b ∧ (splitFields b0 b1).reg2 = d := by
  rcases selectInstr_cases (splitFields b0 b1) with
    ⟨-, hs⟩ | ⟨-, hs⟩ | ⟨-, hs⟩ | ⟨-, hs⟩ | ⟨-, hs⟩ | ⟨-, hs⟩ | ⟨-, hs⟩ | ⟨-, hs⟩
  all_goals cases hs.symm.trans hd
  exact ⟨rfl, rfl, rfl⟩

end Sys2Proof

namespace Sys2Proof.Machine

/-! Why a step leaves Running. -/

theorem step_next_inj {s t u : State} (ht : step s = .next t) (hu : step s = .next u) : t = u := by
  cases ht.symm.trans hu
  rfl

/-- Of all that a step can do, only a DONE halts. -/
theorem done_of_step_halted {s t : State} (h : step s = .next t) (ht : t.runState = .halted) :
    ∃ b0 b1, s.fetch = some (b0, b1) ∧ decode b0 b1 = .instr .done := by
  have hr := running_of_step h
  rcases step_inversion h with ⟨-, rfl⟩ | ⟨_, _, _, -, -, rfl⟩ | ⟨b0, b1, i, hf, hd, -, hcases⟩
  · cases ht
  · cases ht
  · rcases hcases with ⟨d, v, -, -, rfl⟩ | ⟨r, -, rfl⟩ | ⟨rfl, rfl⟩ | ⟨a, b, d, -, -, rfl⟩
    · cases hr.symm.trans ht
    · cases hr.symm.trans ht
    · exact ⟨b0, b1, hf, hd⟩
    · cases ht

/-- Of all that a step can do, only the three faults fail (R200). -/
theorem cause_of_step_failed {s t : State} (h : step s = .next t) (ht : t.runState = .failed) :
    s.progLen - s.pc < 2 ∨
    (∃ b0 b1 op, s.fetch = some (b0, b1) ∧ decode b0 b1 = .reservedOpcode op) ∨
    (∃ b0 b1 a b d, s.fetch = some (b0, b1) ∧ decode b0 b1 = .instr (.div a b d) ∧ s.readReg b = 0#64) := by
  have hr := running_of_step h
  rcases step_inversion h with ⟨hf, -⟩ | ⟨b0, b1, op, hf, hd, -⟩ | ⟨b0, b1, i, hf, hd, -, hcases⟩
  · exact .inl ((fetch_eq_none_iff s).mp hf)
  · exact .inr (.inl ⟨b0, b1, op, hf, hd⟩)
  · rcases hcases with ⟨d, v, -, -, rfl⟩ | ⟨r, -, rfl⟩ | ⟨-, rfl⟩ | ⟨a, b, d, rfl, hz, -⟩
    · cases hr.symm.trans ht
    · cases hr.symm.trans ht
    · cases ht
    · exact .inr (.inr ⟨b0, b1, a, b, d, hf, hd, hz⟩)

/-- Settles O23: the causes are necessary by the inversion of the step; each is sufficient because it determines the step. -/
theorem stepLeavesRunningOnlyByDoneOrFault : Obligations.StepLeavesRunningOnlyByDoneOrFault := by
  unfold Obligations.StepLeavesRunningOnlyByDoneOrFault
  intro s t h
  have hr := running_of_step h
  refine ⟨hr, ?_, ⟨done_of_step_halted h, ?_⟩, ⟨cause_of_step_failed h, ?_⟩⟩
  · rcases step_completes_or_faults h with hc | ⟨kind, code, -, rfl⟩
    · exact hc.runState.imp_right .inl
    · exact .inr (.inr rfl)
  · rintro ⟨b0, b1, hf, hd⟩
    rw [step_next_inj h (step_of_fetch_instr hr hf hd)]
    rfl
  · rintro (hshort | ⟨b0, b1, op, hf, hd⟩ | ⟨b0, b1, a, b, d, hf, hd, hz⟩)
    · rw [step_next_inj h (step_of_fetch_none hr ((fetch_eq_none_iff s).mpr hshort))]
      rfl
    · rw [step_next_inj h (step_of_fetch_reserved hr hf hd)]
      rfl
    · rw [step_next_inj h ((step_of_fetch_instr hr hf hd).trans (exec_div_of_zero hz))]
      rfl

/-! The shape of the state. -/

/-- Outside Failed the shape needs no more of the fault record than that it is cleared. -/
theorem inv_of_cleared {s : State} (hcanon : Memory.wf s.prog = true) (hbelow : Memory.below s.progLen s.prog = true)
    (heven : s.pc % 2 = 0) (hpc : s.pc ≤ 2 * (s.progLen / 2)) (hfault : s.fault = FaultRecord.cleared)
    (hrun : s.runState ≠ .failed)
    (hidle : s.runState = .idle → s.pc = 0 ∧ s.result = 0#64 ∧ ∀ r, s.readReg r = 0#64) : s.Inv where
  progCanonical := hcanon
  progInside := hbelow
  pcEven := heven
  pcInside := hpc
  faultIffFailed := by simp [hfault, hrun]
  noFault _ := hfault
  faultCode := by simp [hfault]
  failedPc h := absurd h hrun
  idleZero := hidle

theorem fault_kind_of_running {s : State} (h : s.Inv) (hr : s.runState = .running) : s.fault.kind = .none := by
  by_contra hk
  cases hr.symm.trans (h.faultIffFailed.mp hk)

theorem inv_of_completesInstr {s t : State} (hinv : s.Inv) (hr : s.runState = .running) (h : CompletesInstr s t) :
    t.Inv := by
  have hinside := h.inside
  have heven := hinv.pcEven
  refine inv_of_cleared ?_ ?_ ?_ ?_ ?_ h.not_failed ?_
  · rw [h.prog]
    exact hinv.progCanonical
  · rw [h.prog, h.progLen]
    exact hinv.progInside
  · rw [h.pc]
    omega
  · rw [h.pc, h.progLen]
    omega
  · rw [h.fault]
    exact hinv.noFault (fault_kind_of_running hinv hr)
  · intro hi
    rcases h.runState with hr' | hr' <;> cases hr'.symm.trans hi

theorem inv_raiseFault {s : State} (hinv : s.Inv) {kind : FaultKind} {code : Nibble} (h : LegalFault kind code) :
    (s.raiseFault kind code).Inv where
  progCanonical := hinv.progCanonical
  progInside := hinv.progInside
  pcEven := hinv.pcEven
  pcInside := hinv.pcInside
  faultIffFailed := iff_of_true h.named rfl
  noFault hk := absurd hk h.named
  faultCode := ⟨h.unknownOpcode, h.otherKind⟩
  failedPc _ := rfl
  idleZero hi := nomatch hi

/-- Settles O25: a completed instruction moves an even `pc` by 2 inside the program and leaves the cleared record; a fault
writes a legal record with `pc` as its position. -/
theorem everyStepKeepsTheInvariant : Obligations.EveryStepKeepsTheInvariant := by
  unfold Obligations.EveryStepKeepsTheInvariant
  intro s t hinv h
  rcases step_completes_or_faults h with hc | ⟨kind, code, hlegal, rfl⟩
  · exact inv_of_completesInstr hinv (running_of_step h) hc
  · exact inv_raiseFault hinv hlegal

/-! The cause of an ended run. -/

/-- With no fault recorded there is only a halt to account for. -/
theorem endedForCause_of_no_fault {s : State} (hk : s.fault.kind = .none)
    (hhalt : s.runState = .halted →
      2 ≤ s.pc ∧ s.pc ≤ s.progLen ∧ ∃ b0, s.progByte (s.pc - 2) = some b0 ∧ b0.extractLsb' 4 4 = 0#4) :
    s.EndedForCause where
  halted := hhalt
  unknownOpcode h := nomatch hk.symm.trans h
  divisionByZero h := nomatch hk.symm.trans h
  unexpectedEnd h := nomatch hk.symm.trans h

theorem endedForCause_of_fetch_none {s : State} (hf : s.fetch = none) :
    (s.raiseFault .unexpectedEndOfProgram 0#4).EndedForCause where
  halted h := nomatch h
  unknownOpcode h := nomatch h
  divisionByZero h := nomatch h
  unexpectedEnd _ := (fetch_eq_none_iff s).mp hf

theorem endedForCause_of_reserved {s : State} {b0 b1 : Byte} {op : Nibble} (hf : s.fetch = some (b0, b1))
    (hd : decode b0 b1 = .reservedOpcode op) : (s.raiseFault .unknownOpcode op).EndedForCause where
  halted h := nomatch h
  unknownOpcode _ := by
    obtain ⟨h0, h1⟩ := (fetch_eq_some_iff s b0 b1).mp hf
    exact ⟨b0, b1, h0, h1, op_of_decode_reserved hd⟩
  divisionByZero h := nomatch h
  unexpectedEnd h := nomatch h

theorem endedForCause_of_div_zero {s : State} {b0 b1 : Byte} {a b d : RegIdx} (hf : s.fetch = some (b0, b1))
    (hd : decode b0 b1 = .instr (.div a b d)) (hz : s.readReg b = 0#64) :
    (s.raiseFault .divisionByZero 0#4).EndedForCause where
  halted h := nomatch h
  unknownOpcode h := nomatch h
  divisionByZero _ := by
    obtain ⟨h0, h1⟩ := (fetch_eq_some_iff s b0 b1).mp hf
    obtain ⟨-, rfl, -⟩ := fields_of_decode_div hd
    exact ⟨b0, b1, h0, h1, op_of_decode_instr hd, hz⟩
  unexpectedEnd h := nomatch h

theorem endedForCause_of_done {s : State} {b0 b1 : Byte} (hk : s.fault.kind = .none) (hf : s.fetch = some (b0, b1))
    (hd : decode b0 b1 = .instr .done) : s.halt.advancePc.EndedForCause :=
  endedForCause_of_no_fault hk fun _ =>
    ⟨Nat.le_add_left 2 s.pc, add_two_le_of_fetch hf, b0, ((fetch_eq_some_iff s b0 b1).mp hf).1, op_of_decode_instr hd⟩

/-- Settles O28, by what the step did: each fault and the DONE leave their own cause behind, and every other instruction
stays in Running with no fault recorded. -/
theorem everyStepKeepsTheCauseOfTheEnd : Obligations.EveryStepKeepsTheCauseOfTheEnd := by
  unfold Obligations.EveryStepKeepsTheCauseOfTheEnd
  intro s t hinv _ h
  have hr := running_of_step h
  have hk := fault_kind_of_running hinv hr
  rcases step_inversion h with ⟨hf, rfl⟩ | ⟨b0, b1, op, hf, hd, rfl⟩ | ⟨b0, b1, i, hf, hd, -, hcases⟩
  · exact endedForCause_of_fetch_none hf
  · exact endedForCause_of_reserved hf hd
  · rcases hcases with ⟨d, v, -, -, rfl⟩ | ⟨r, -, rfl⟩ | ⟨rfl, rfl⟩ | ⟨a, b, d, rfl, hz, rfl⟩
    · exact endedForCause_of_no_fault hk fun hh => nomatch hr.symm.trans hh
    · exact endedForCause_of_no_fault hk fun hh => nomatch hr.symm.trans hh
    · exact endedForCause_of_done hk hf hd
    · exact endedForCause_of_div_zero hf hd hz

/-! Reset, and the host's moves. -/

theorem inv_resetCore {s : State} (hcanon : Memory.wf s.prog = true) (hbelow : Memory.below s.progLen s.prog = true) :
    s.resetCore.Inv :=
  inv_of_cleared hcanon hbelow rfl (Nat.zero_le _) rfl (by simp) fun _ => ⟨rfl, rfl, readReg_resetCore s⟩

theorem endedForCause_resetCore (s : State) : s.resetCore.EndedForCause :=
  endedForCause_of_no_fault rfl fun h => nomatch h

/-- Settles O26: the state after construction is reset with an empty program. -/
theorem resetSatisfiesTheInvariant : Obligations.ResetSatisfiesTheInvariant := by
  unfold Obligations.ResetSatisfiesTheInvariant
  have hreset : State.reset = State.reset.resetCore := rfl
  rw [hreset]
  exact ⟨inv_resetCore rfl rfl, endedForCause_resetCore State.reset⟩

/-- The program that a run binds is canonical and inside `L`, and nothing else differs from reset but the run state. -/
theorem inv_beginRun (bytes : List Byte) (s : State) : (beginRun bytes s).Inv := by
  have hbelow : Memory.below bytes.length (Memory.ofBytes 0 bytes) = true := by
    simpa using Memory.ofBytes_below 0 bytes
  exact inv_of_cleared (Memory.ofBytes_wf bytes) hbelow rfl (Nat.zero_le _) rfl nofun nofun

theorem endedForCause_beginRun (bytes : List Byte) (s : State) : (beginRun bytes s).EndedForCause :=
  endedForCause_of_no_fault rfl fun h => nomatch h

theorem hostReset_of_not_running {s : State} (h : s.runState ≠ .running) : hostReset s = .next s.resetCore :=
  if_neg h

theorem hostReset_of_running {s : State} (h : s.runState = .running) : hostReset s = .fault .noHostMoveWhileRunning :=
  if_pos h

/-- Where the host's reset answers a next state, it is the reset of the state. -/
theorem eq_resetCore_of_hostReset {s t : State} (h : hostReset s = .next t) : t = s.resetCore := by
  by_cases hr : s.runState = .running
  · cases (hostReset_of_running hr).symm.trans h
  · cases (hostReset_of_not_running hr).symm.trans h
    rfl

/-- Settles O27: both moves clear the fault record and `pc`, and leave a canonical program inside `L`. -/
theorem hostMovesKeepTheInvariant : Obligations.HostMovesKeepTheInvariant := by
  unfold Obligations.HostMovesKeepTheInvariant
  refine ⟨fun bytes s => ⟨inv_beginRun bytes s, endedForCause_beginRun bytes s⟩, fun s t hinv h => ?_⟩
  obtain rfl := eq_resetCore_of_hostReset h
  exact ⟨inv_resetCore hinv.progCanonical hinv.progInside, endedForCause_resetCore s⟩

/-- Settles O29: outside Running the host's reset is the reset of the state, field by field. -/
theorem hostResetLeavesTheResetValues : Obligations.HostResetLeavesTheResetValues := by
  unfold Obligations.HostResetLeavesTheResetValues
  intro s hr
  exact ⟨_, hostReset_of_not_running hr, rfl, readReg_resetCore s, rfl, rfl, rfl, fun _ => rfl⟩

theorem hostRun_of_running {s : State} (bytes : List Byte) (h : s.runState = .running) :
    hostRun bytes s = .fault .noHostMoveWhileRunning :=
  if_pos h

theorem hostReadResult_of_running {s : State} (h : s.runState = .running) :
    hostReadResult s = .fault .noHostMoveWhileRunning :=
  if_pos h

theorem hostReadResult_of_not_running {s : State} (h : s.runState ≠ .running) : hostReadResult s = .next s.result :=
  if_neg h

/-- Settles O30: each of the host's moves looks at the run state first. -/
theorem hostHasNoMoveWhileRunning : Obligations.HostHasNoMoveWhileRunning := by
  unfold Obligations.HostHasNoMoveWhileRunning
  intro bytes s
  exact ⟨fun hr => ⟨hostReset_of_running hr, hostRun_of_running bytes hr, hostReadResult_of_running hr⟩,
    hostReadResult_of_not_running⟩

/-! The program that is bound. -/

/-- A bound program reads as its bytes, and as no byte past them (R50). -/
@[simp] theorem progByte_beginRun (bytes : List Byte) (s : State) (a : Nat) :
    (beginRun bytes s).progByte a = bytes[a]? := by
  have hread : Memory.read (Memory.ofBytes 0 bytes) a = bytes.getD a Memory.unlisted := by
    simpa using Memory.read_ofBytes 0 bytes a
  have hbyte : (beginRun bytes s).progByte a = if a < bytes.length then some (bytes.getD a Memory.unlisted) else none := by
    rw [← hread]
    rfl
  rw [hbyte]
  by_cases ha : a < bytes.length
  · rw [if_pos ha, List.getD_eq_getElem _ _ ha, List.getElem?_eq_getElem ha]
  · rw [if_neg ha, List.getElem?_eq_none (Nat.not_lt.mp ha)]

/-- Settles O31: the store reads as the bytes that it was made of, and every other field is given by the start itself. -/
theorem runBindsExactlyTheBytes : Obligations.RunBindsExactlyTheBytes := by
  unfold Obligations.RunBindsExactlyTheBytes
  intro bytes s
  exact ⟨progByte_beginRun bytes s, rfl, rfl, rfl, readReg_beginRun bytes s, rfl, rfl⟩

/-- The two bytes placed at `pc` are the ones that the next step fetches. -/
theorem fetch_placeAtPc {s : State} (hwf : Memory.wf s.prog = true) (b0 b1 : Byte) :
    (s.placeAtPc b0 b1).fetch = some (b0, b1) := by
  have hwf' : Memory.wf (Memory.write s.prog s.pc b0) = true := Memory.write_wf hwf s.pc b0
  have hlen : ¬ max s.progLen (s.pc + 2) - s.pc < 2 := by omega
  simp [State.fetch, State.placeAtPc, hlen, Memory.read_write hwf', Memory.read_write hwf]

theorem decode_of_decodeTableWord {nbits w : Nat} {i : Instr} (h : decodeTableWord nbits w = some i) :
    decode (tableBytes nbits w).1 (tableBytes nbits w).2 = .instr i := by
  unfold decodeTableWord at h
  split at h
  case h_1 j hd =>
    cases h
    exact hd
  case h_2 => cases h

/-- Settles O44: the placed state is in Running and fetches the word's two bytes, which decode to the instruction; a write
keeps the store canonical. -/
theorem placedWordIsTheNextInstruction : Obligations.PlacedWordIsTheNextInstruction := by
  unfold Obligations.PlacedWordIsTheNextInstruction
  intro s nbits w i hwf hw
  have hf : (s.withFetchWord nbits w).fetch = some ((tableBytes nbits w).1, (tableBytes nbits w).2) :=
    fetch_placeAtPc hwf _ _
  exact ⟨step_of_fetch_instr rfl hf (decode_of_decodeTableWord hw), Memory.write_wf (Memory.write_wf hwf _ _) _ _⟩

end Sys2Proof.Machine

/-! PROOF. Runs (R19, R58, R128 to R130, R141): what every state of a run keeps, the last step of a run, where it fetches,
how it ends, and what it does not depend on. -/

namespace Sys2Proof.Machine

/-! The states of a run, one after the other. -/

section
variable {bytes : List Byte} {s : State} {j k : Nat}

/-- What holds at the start of a run and is kept by every step holds throughout the run. -/
theorem stateAfter_of_step_keeps {P : State → Prop} (hstep : ∀ u t, P u → step u = .next t → P t)
    (h0 : P (beginRun bytes s)) (k : Nat) : P (stateAfter bytes k s) := by
  induction k with
  | zero => exact h0
  | succ k ih =>
    by_cases hr : (stateAfter bytes k s).runState = .running
    · obtain ⟨t, ht⟩ := step_answers_next hr
      rw [stateAfter_succ_of_step ht]
      exact hstep _ _ ih ht
    · rw [stateAfter_succ_of_not_running hr]
      exact ih

theorem step_stateAfter (hr : (stateAfter bytes k s).runState = .running) :
    step (stateAfter bytes k s) = .next (stateAfter bytes (k + 1) s) := by
  obtain ⟨t, ht⟩ := step_answers_next hr
  rw [stateAfter_succ_of_step ht, ht]

/-- Where a run has ended it stays. -/
theorem stateAfter_of_ended (hjk : j ≤ k) (hend : (stateAfter bytes j s).runState ≠ .running) :
    stateAfter bytes k s = stateAfter bytes j s := by
  induction k, hjk using Nat.le_induction with
  | base => rfl
  | succ k _ ih =>
    have hk : (stateAfter bytes k s).runState ≠ .running := by rwa [ih]
    rw [stateAfter_succ_of_not_running hk, ih]

theorem running_of_running_later (hjk : j ≤ k) (hr : (stateAfter bytes k s).runState = .running) :
    (stateAfter bytes j s).runState = .running := by
  by_contra hend
  rw [stateAfter_of_ended hjk hend] at hr
  exact hend hr

/-- A run that has ended has a last step, which is taken in Running like all before it. -/
theorem exists_last_step (hend : (stateAfter bytes k s).runState ≠ .running) :
    ∃ p, p < k ∧ (stateAfter bytes p s).runState = .running ∧ stateAfter bytes (p + 1) s = stateAfter bytes k s := by
  induction k with
  | zero => exact absurd rfl hend
  | succ k ih =>
    by_cases hr : (stateAfter bytes k s).runState = .running
    · exact ⟨k, Nat.lt_succ_self k, hr, rfl⟩
    · obtain ⟨p, hpk, hp, heq⟩ := ih hr
      exact ⟨p, Nat.lt_succ_of_lt hpk, hp, by rw [heq, stateAfter_succ_of_not_running hr]⟩

end

/-! What every state of a run keeps. -/

theorem inv_stateAfter (bytes : List Byte) (k : Nat) (s : State) : (stateAfter bytes k s).Inv :=
  stateAfter_of_step_keeps everyStepKeepsTheInvariant (inv_beginRun bytes s) k

theorem progLen_stateAfter (bytes : List Byte) (k : Nat) (s : State) : (stateAfter bytes k s).progLen = bytes.length :=
  stateAfter_of_step_keeps (P := fun u => u.progLen = bytes.length)
    (fun u t hu h => (noStepWritesTheProgram u t h).2.1.trans hu) rfl k

theorem progByte_stateAfter (bytes : List Byte) (k : Nat) (s : State) (a : Nat) :
    (stateAfter bytes k s).progByte a = bytes[a]? :=
  stateAfter_of_step_keeps (P := fun u => u.progByte a = bytes[a]?)
    (fun u t hu h => ((noStepWritesTheProgram u t h).2.2 a).trans hu) (progByte_beginRun bytes s a) k

/-- A run is never in Idle. -/
theorem stateAfter_ne_idle (bytes : List Byte) (k : Nat) (s : State) : (stateAfter bytes k s).runState ≠ .idle := by
  refine stateAfter_of_step_keeps (P := fun u => u.runState ≠ .idle) (fun u t _ h => ?_) nofun k
  obtain ⟨-, ht, -⟩ := stepLeavesRunningOnlyByDoneOrFault u t h
  rcases ht with ht | ht | ht <;> simp [ht]

theorem halted_or_failed_of_not_running {bytes : List Byte} {k : Nat} {s : State}
    (hr : (stateAfter bytes k s).runState ≠ .running) :
    (stateAfter bytes k s).runState = .halted ∨ (stateAfter bytes k s).runState = .failed := by
  cases h : (stateAfter bytes k s).runState with
  | idle => exact absurd h (stateAfter_ne_idle bytes k s)
  | running => exact absurd h hr
  | halted => exact .inl rfl
  | failed => exact .inr rfl

/-! Where a run fetches, and how long it is. -/

/-- Settles O34, by induction on the number of steps: a step that stays in Running took no fault, so it added 2. -/
theorem stepNumberKFetchesAtTwoK : Obligations.StepNumberKFetchesAtTwoK := by
  unfold Obligations.StepNumberKFetchesAtTwoK
  intro bytes s k hr
  induction k with
  | zero => rfl
  | succ k ih =>
    have hk := running_of_running_later (Nat.le_succ k) hr
    have hpc := pcAdvancesByTwoExceptOnFaults _ _ (step_stateAfter hk)
    rw [if_neg (by simp [hr]), ih hk] at hpc
    exact hpc

/-- A run still in Running after `k` steps has passed `2k` bytes of its program. -/
theorem two_mul_le_length_of_running {bytes : List Byte} {k : Nat} {s : State}
    (hr : (stateAfter bytes k s).runState = .running) : 2 * k ≤ bytes.length := by
  have hpc := (inv_stateAfter bytes k s).pcInside
  rw [stepNumberKFetchesAtTwoK bytes s k hr, progLen_stateAfter] at hpc
  omega

/-- Settles O35: a run that is in Running has not passed the end of its program. -/
theorem everyRunEndsWithinTheBound : Obligations.EveryRunEndsWithinTheBound := by
  unfold Obligations.EveryRunEndsWithinTheBound
  intro bytes s k hk
  refine halted_or_failed_of_not_running fun hr => ?_
  have := two_mul_le_length_of_running hr
  omega

theorem not_running_at_stepBound (bytes : List Byte) (s : State) :
    (stateAfter bytes (stepBound bytes) s).runState ≠ .running := by
  rcases everyRunEndsWithinTheBound bytes s _ (Nat.le_refl (stepBound bytes)) with h | h <;> simp [h]

/-- Settles O37: the host's run is the run up to the bound, and so up to the state that its last step leaves. -/
theorem hostRunReturnsAtTheEndOfTheRun : Obligations.HostRunReturnsAtTheEndOfTheRun := by
  unfold Obligations.HostRunReturnsAtTheEndOfTheRun
  intro bytes s hs hfits
  have hend := not_running_at_stepBound bytes s
  have hrun : hostRun bytes s = .next (stateAfter bytes (stepBound bytes) s) := by
    rw [hostRun_of_not_running bytes hs, if_neg (Nat.not_lt.mpr hfits)]
    rfl
  obtain ⟨p, -, hp, heq⟩ := exists_last_step hend
  refine ⟨p + 1, _, hrun, heq.symm, fun j hj => ?_, ?_⟩
  · have hr := running_of_running_later (Nat.le_of_lt_succ hj) hp
    exact ⟨hr, step_stateAfter hr⟩
  · rcases halted_or_failed_of_not_running hend with hh | hfail
    · exact .inl ⟨hh, by simp [runReturn, hh]⟩
    · exact .inr ⟨hfail, (inv_stateAfter bytes _ s).faultIffFailed.mpr hfail, by simp [runReturn, hfail]⟩

/-! A run halts at a DONE that it reaches. -/

/-- Step number `k` fetches the bytes at `2k` and `2k + 1`, if the program has them. -/
theorem fetch_stateAfter_iff {bytes : List Byte} {k : Nat} {s : State}
    (hr : (stateAfter bytes k s).runState = .running) (b0 b1 : Byte) :
    (stateAfter bytes k s).fetch = some (b0, b1) ↔ bytes[2 * k]? = some b0 ∧ bytes[2 * k + 1]? = some b1 := by
  rw [fetch_eq_some_iff, stepNumberKFetchesAtTwoK bytes s k hr, progByte_stateAfter, progByte_stateAfter]

/-- A step on two fetched bytes stays in Running exactly when their instruction goes on (R130): the multiplexer neither
raises a fault nor halts. -/
theorem running_iff_goesOn {s t : State} {b0 b1 : Byte} (h : step s = .next t) (hf : s.fetch = some (b0, b1)) :
    t.runState = .running ↔ goesOn s (splitFields b0 b1) := by
  have hr := running_of_step h
  obtain rfl : t = datapathStep s := step_next_inj h (datapathComputesTheStep s hr)
  rw [datapathStep_of_fetch hf, goesOn, ← muxFaultKind_eq_none_iff, Nat.one_le_iff_ne_zero, ← hr]
  simp only [commitMux, dispatchMux, decide_eq_true_eq]
  split
  case isTrue hk => simp [hr, hk]
  case isFalse hk =>
    split
    case isTrue h0 => simp [hr, h0]
    case isFalse h0 => simp [h0, not_not.mp hk]

/-- A step that stays in Running had two bytes to fetch, whose instruction goes on. -/
theorem goesOn_of_step_running {s t : State} (h : step s = .next t) (ht : t.runState = .running) :
    ∃ b0 b1, s.fetch = some (b0, b1) ∧ goesOn s (splitFields b0 b1) := by
  cases hf : s.fetch with
  | none =>
    rw [step_next_inj h (step_of_fetch_none (running_of_step h) hf)] at ht
    cases ht
  | some p => exact ⟨p.1, p.2, rfl, (running_iff_goesOn h hf).mp ht⟩

theorem decode_of_op_zero {b0 : Byte} (b1 : Byte) (h : b0.extractLsb' 4 4 = 0#4) : decode b0 b1 = .instr .done := by
  simp [decode, selectInstr, splitFields, h]

/-- As long as each instruction of a run so far goes on, the run is in Running. -/
theorem running_of_goesOn {bytes : List Byte} {s : State} {p : Nat}
    (hgo : ∀ j, j < p → ∃ c0 c1, bytes[2 * j]? = some c0 ∧ bytes[2 * j + 1]? = some c1 ∧
      goesOn (stateAfter bytes j s) (splitFields c0 c1)) :
    (stateAfter bytes p s).runState = .running := by
  induction p with
  | zero => rfl
  | succ p ih =>
    have hp := ih fun j hj => hgo j (Nat.lt_succ_of_lt hj)
    obtain ⟨c0, c1, h0, h1, hc⟩ := hgo p (Nat.lt_succ_self p)
    exact (running_iff_goesOn (step_stateAfter hp) ((fetch_stateAfter_iff hp c0 c1).mpr ⟨h0, h1⟩)).mpr hc

/-- Settles O36: a halted run has a last step, which executed a DONE, and every step before it stayed in Running; in the
other direction the run reaches the DONE within the bound, halts there and stays. -/
theorem runHaltsExactlyAtAReachedDone : Obligations.RunHaltsExactlyAtAReachedDone := by
  unfold Obligations.RunHaltsExactlyAtAReachedDone
  intro bytes s
  constructor
  · intro hhalt
    obtain ⟨p, -, hp, heq⟩ := exists_last_step (not_running_at_stepBound bytes s)
    obtain ⟨b0, b1, hf, hd⟩ := done_of_step_halted (step_stateAfter hp) (heq ▸ hhalt)
    obtain ⟨h0, h1⟩ := (fetch_stateAfter_iff hp b0 b1).mp hf
    refine ⟨p, b0, b1, h0, h1, op_of_decode_instr hd, fun j hj => ?_⟩
    have hrj := running_of_running_later (Nat.le_of_lt hj) hp
    obtain ⟨c0, c1, hfj, hc⟩ := goesOn_of_step_running (step_stateAfter hrj) (running_of_running_later hj hp)
    obtain ⟨hc0, hc1⟩ := (fetch_stateAfter_iff hrj c0 c1).mp hfj
    exact ⟨c0, c1, hc0, hc1, hc⟩
  · rintro ⟨p, b0, b1, h0, h1, hop, hgo⟩
    have hp := running_of_goesOn hgo
    have hf := (fetch_stateAfter_iff hp b0 b1).mpr ⟨h0, h1⟩
    have hdone : (stateAfter bytes (p + 1) s).runState = .halted := by
      rw [stateAfter_succ_of_step (step_of_fetch_instr hp hf (decode_of_op_zero b1 hop))]
      rfl
    have hlt : 2 * p + 1 < bytes.length := (List.getElem?_eq_some_iff.mp h1).1
    have hbound : p + 1 ≤ stepBound bytes := by
      unfold stepBound
      omega
    rw [stateAfter_of_ended hbound (by simp [hdone]), hdone]

/-! Bytes that are not reached. -/

/-- The same state with another program. -/
def State.withProgram (s : State) (p : Memory) (n : Nat) : State := { s with prog := p, progLen := n }

/-- No instruction looks at the program. -/
theorem exec_withProgram {i : Instr} {s t : State} (h : exec i s = .next t) (p : Memory) (n : Nat) :
    exec i (s.withProgram p n) = .next (t.withProgram p n) := by
  cases i with
  | div a b d =>
    by_cases hz : s.readReg b = 0#64
    · cases (exec_div_of_zero hz).symm.trans h
      exact exec_div_of_zero (s := s.withProgram p n) hz
    · cases (exec_div_of_ne_zero hz).symm.trans h
      exact exec_div_of_ne_zero (s := s.withProgram p n) hz
  | done | loadi | add | sub | mul | movres =>
    cases h
    rfl

/-- A step looks at the program only through its fetch. -/
theorem step_withProgram {s t : State} {p : Memory} {n : Nat} (h : step s = .next t)
    (hfetch : (s.withProgram p n).fetch = s.fetch) : step (s.withProgram p n) = .next (t.withProgram p n) := by
  have hr := running_of_step h
  have hr' : (s.withProgram p n).runState = .running := hr
  rcases step_running_cases hr with ⟨hf, hs⟩ | ⟨b0, b1, op, hf, hd, hs⟩ | ⟨b0, b1, i, hf, hd, hs⟩
  · obtain rfl := step_next_inj h hs
    exact step_of_fetch_none hr' (hfetch.trans hf)
  · obtain rfl := step_next_inj h hs
    exact step_of_fetch_reserved hr' (hfetch.trans hf) hd
  · rw [step_of_fetch_instr hr' (hfetch.trans hf) hd]
    exact exec_withProgram (hs.symm.trans h) p n

/-- The fetch looks at two bytes of the program. -/
theorem fetch_congr {s t : State} (hpc : t.pc = s.pc) (h0 : t.progByte s.pc = s.progByte s.pc)
    (h1 : t.progByte (s.pc + 1) = s.progByte (s.pc + 1)) : t.fetch = s.fetch := by
  refine Option.ext fun ⟨b0, b1⟩ => ?_
  rw [fetch_eq_some_iff, fetch_eq_some_iff, hpc, h0, h1]

/-- The run of a program that agrees in the first `2k` bytes is, after `k` steps, the same run on another program. -/
theorem stateAfter_eq_withProgram {bytes bytes' : List Byte} (s s' : State) {k : Nat}
    (hagree : ∀ a, a < 2 * k → bytes'[a]? = bytes[a]?) :
    stateAfter bytes' k s' = (stateAfter bytes k s).withProgram (Memory.ofBytes 0 bytes') bytes'.length := by
  induction k with
  | zero => rfl
  | succ k ih =>
    have ih := ih fun a ha => hagree a (by omega)
    by_cases hr : (stateAfter bytes k s).runState = .running
    · have hpc := stepNumberKFetchesAtTwoK bytes s k hr
      have hbyte (a : Nat) (ha : a < 2 * (k + 1)) :
          (stateAfter bytes' k s').progByte a = (stateAfter bytes k s).progByte a := by
        rw [progByte_stateAfter, progByte_stateAfter, hagree a ha]
      have hfetch : (stateAfter bytes' k s').fetch = (stateAfter bytes k s).fetch :=
        fetch_congr (by rw [ih]; rfl) (hbyte _ (by omega)) (hbyte _ (by omega))
      rw [ih] at hfetch
      apply stateAfter_succ_of_step
      rw [ih]
      exact step_withProgram (step_stateAfter hr) hfetch
    · have hr' : (stateAfter bytes' k s').runState ≠ .running := by rwa [ih]
      rw [stateAfter_succ_of_not_running hr', stateAfter_succ_of_not_running hr, ih]

/-- Settles O33: after `k` steps the two runs differ in the program only. -/
theorem unreachedBytesHaveNoEffect : Obligations.UnreachedBytesHaveNoEffect := by
  unfold Obligations.UnreachedBytesHaveNoEffect
  intro bytes bytes' s s' k _ _ htake
  have hagree (a : Nat) (ha : a < 2 * k) : bytes'[a]? = bytes[a]? :=
    calc bytes'[a]?
      _ = (bytes'.take (2 * k))[a]? := (List.getElem?_take_of_lt ha).symm
      _ = (bytes.take (2 * k))[a]? := by rw [htake]
      _ = bytes[a]? := List.getElem?_take_of_lt ha
  rw [stateAfter_eq_withProgram s s' hagree]
  exact ⟨fun _ => rfl, rfl, rfl, rfl, rfl⟩

/-! Non-zero values. -/

/-- Every register and `result` are 0. -/
structure AllZero (s : State) : Prop where
  regs : ∀ r, s.readReg r = 0#64
  result : s.result = 0#64

theorem step_keeps_allZero {s t : State} (hz : AllZero s)
    (hload : ∀ f, fieldsAt s = some f → f.op = 1#4 → f.imm8 = 0#8) (h : step s = .next t) : AllZero t := by
  have hr := running_of_step h
  obtain ⟨hsome, hnone⟩ := writeBackIsSelectedByTheOpcode s hr
  cases hf : s.fetch with
  | none =>
    obtain ⟨u, hu, hregs, hres⟩ := hnone hf
    obtain rfl := step_next_inj h hu
    exact ⟨fun r => (hregs r).trans (hz.regs r), hres.trans hz.result⟩
  | some p =>
    obtain ⟨u, hu, hregs, hres⟩ := hsome p.1 p.2 hf
    obtain rfl := step_next_inj h hu
    refine ⟨fun r => ?_, by simp [hres, hz.regs, hz.result]⟩
    rw [hregs r]
    split
    case h_1 hop => -- LOADI
      have himm : p.2 = 0#8 := hload _ (fieldsAt_of_fetch hr hf) (BitVec.eq_of_toNat_eq hop)
      simp [himm, hz.regs]
    all_goals simp [hz.regs]

/-- Settles O40, by induction on the number of steps: a step computes zeros from zeros, unless it loads something else. -/
theorem onlyLoadiBringsNonZeroValues : Obligations.OnlyLoadiBringsNonZeroValues := by
  unfold Obligations.OnlyLoadiBringsNonZeroValues
  intro bytes s k hload
  suffices hz : AllZero (stateAfter bytes k s) from ⟨hz.regs, hz.result⟩
  induction k with
  | zero => exact ⟨readReg_beginRun bytes s, rfl⟩
  | succ k ih =>
    have hz := ih fun j hj => hload j (Nat.lt_succ_of_lt hj)
    by_cases hr : (stateAfter bytes k s).runState = .running
    · exact step_keeps_allZero hz (hload k (Nat.lt_succ_self k)) (step_stateAfter hr)
    · rw [stateAfter_succ_of_not_running hr]
      exact hz

end Sys2Proof.Machine

/-! PROOF. The laws of the arithmetic instructions (R153): the laws of their four functions, carried to the register that
is written. -/

namespace Sys2Proof.Machine

theorem sumOf_comm (a b : Word) : sumOf a b = sumOf b a := BitVec.add_comm a b

theorem prodOf_comm (a b : Word) : prodOf a b = prodOf b a := BitVec.mul_comm a b

theorem sumOf_diffOf (a b : Word) : sumOf (diffOf a b) b = a := BitVec.sub_add_cancel a b

section
variable {k : Nat}

theorem toNat_ofNat_two_pow (hk : k < 64) : (BitVec.ofNat 64 (2 ^ k)).toNat = 2 ^ k :=
  Nat.mod_eq_of_lt (Nat.pow_lt_pow_right (by decide) hk)

theorem ofNat_two_pow_ne_zero (hk : k < 64) : BitVec.ofNat 64 (2 ^ k) ≠ 0#64 := fun h =>
  absurd ((toNat_ofNat_two_pow hk).symm.trans (congrArg BitVec.toNat h)) (Nat.two_pow_pos k).ne'

theorem prodOf_two_pow (hk : k < 64) (a : Word) : prodOf a (BitVec.ofNat 64 (2 ^ k)) = a <<< k := by
  apply BitVec.eq_of_toNat_eq
  rw [prodOf, BitVec.toNat_mul, toNat_ofNat_two_pow hk, BitVec.toNat_shiftLeft, Nat.shiftLeft_eq]

theorem quotOf_two_pow (hk : k < 64) (a : Word) : quotOf a (BitVec.ofNat 64 (2 ^ k)) = a >>> k := by
  apply BitVec.eq_of_toNat_eq
  rw [quotOf, BitVec.toNat_udiv, toNat_ofNat_two_pow hk, BitVec.toNat_ushiftRight, Nat.shiftRight_eq_div_pow]

end

/-- After an instruction that writes one register, this register reads as the value written. -/
theorem readReg_dest_of_exec {i : Instr} {d : RegIdx} {v w : Word} {s : State}
    (h : exec i s = .next (s.writeReg d v).advancePc) (hv : v = w) : ∃ t, exec i s = .next t ∧ t.readReg d = w := by
  obtain ⟨t, ht, hw⟩ := writesOnlyReg_of_exec h hv
  exact ⟨t, ht, hw.dest⟩

/-- Settles O41: each law is the law of the function that computes the value written. -/
theorem arithmeticLawsHoldOfTheInstructions : Obligations.ArithmeticLawsHoldOfTheInstructions := by
  unfold Obligations.ArithmeticLawsHoldOfTheInstructions
  intro s0 s1 d s
  refine ⟨?_, ?_, fun hd => ?_, fun k hk hs1 => ⟨?_, ?_⟩⟩
  · rw [exec_add, exec_add, sumOf_comm]
  · rw [exec_mul, exec_mul, prodOf_comm]
  · obtain ⟨t, ht, hw⟩ := writesOnlyReg_of_exec (exec_sub s0 s1 d s) rfl
    obtain ⟨u, hu, hu'⟩ := readReg_dest_of_exec (exec_add d s1 d t) rfl
    refine ⟨t, u, ht, hu, ?_⟩
    rw [hu', hw.dest, hw.others s1 hd.symm, sumOf_diffOf]
  · exact readReg_dest_of_exec (exec_mul s0 s1 d s) (by rw [hs1, prodOf_two_pow hk])
  · have hne : s.readReg s1 ≠ 0#64 := by
      rw [hs1]
      exact ofNat_two_pow_ne_zero hk
    exact readReg_dest_of_exec (exec_div_of_ne_zero hne) (by rw [hs1, quotOf_two_pow hk])

end Sys2Proof.Machine
